-- ==== Sys2Proof/Word.lean ====
section
/-!
DEFINITION. The two word types of PXC: the 32-bit command word (`CW` = 32, also the width of an `OUT` word and of a CSR)
and the byte of the pixel memory (spec/00_scope.md section 4, spec/20_memory.md R30).
-/

namespace Sys2Proof

/-- A command word, an `OUT` word or a CSR value: 32 bits (`CW` = 32). -/
abbrev Word := BitVec 32

/-- A byte of PMEM, and one channel of a Color (`CHW` = 8). -/
abbrev Byte := BitVec 8

end Sys2Proof
end

