-- ==== Sys2Proof/Config.lean ====
section
/-!
DEFINITION. The parameters of the hardware that an implementation fixes (spec/00_scope.md section 4, spec/10_state.md R26).
`PMEM_BYTES` is OPEN in the spec ("a model takes it as an argument"): it is a field of `Config`, and a machine carries its
`Config` unchanged from reset on (DESIGN CHOICE, notes/assumptions/1.md). `NUM` is not a field: this model is the exact rational instance
(spec/00_scope.md R8; DESIGN CHOICE, notes/assumptions/2.md). The machine has no free value: no rule of the spec reads an unspecified one.
-/

namespace Sys2Proof

/-- The parameters a model of PXC takes as arguments.
`pmemBytes` is `PMEM_BYTES`, the capacity of the pixel memory, "below 2^32" (decision D20). -/
structure Config where
  pmemBytes : Fin 4294967296
  deriving DecidableEq, Repr

/-- The default parameters of PXC-1: `PMEM_BYTES` = 16,777,216 (spec/00_scope.md section 4). -/
def Config.pxc1 : Config := { pmemBytes := 16777216 }

/-- `PAL_ENTRIES`: entries of the palette store (decision D12). -/
abbrev Config.palEntries : Nat := 256

/-- `ROWALIGN`: the row padding boundary, in bytes, that CREATE uses. -/
abbrev Config.rowAlign : Nat := 4

end Sys2Proof
end

