-- ==== Sys2Proof/Syntax.lean ====
section
/-!
DEFINITION. The names the spec gives to pixel formats (spec/30_encoding.md R54), colours (R53) and fault causes
(spec/60_exceptions.md R150), and the ten commands of the opcode table (R55) with the operand words of their packets (R52).
Every operand of a packet is one whole 32-bit word and is kept as that word; Machine/Operands.lean reads its value.
-/

namespace Sys2Proof

/-- The closed enumeration of pixel formats (spec/30_encoding.md R54). -/
inductive PixelFormat where
  | indexed8
  | rgb24
  | argb32
  | argb64
  deriving DecidableEq, Repr

/-- A Color: four 8-bit channels (spec/00_scope.md section 8, Values). -/
structure Color where
  a : Byte
  r : Byte
  g : Byte
  b : Byte
  deriving DecidableEq, Repr

/-- The ten fault causes of the hardware (spec/60_exceptions.md R150). These are what `raise` records in `STATUS.ERRCODE`;
they are not the model's own stops, which are `Machine.Fault`. -/
inductive ErrCode where
  | unsupportedFormat
  | invalidDimensions
  | bufferSizeMismatch
  | illegalCommand
  | noBuffer
  | indexedWriteTarget
  | paletteLookup
  | degenerateLine
  | accessFault
  | capacityExceeded
  deriving DecidableEq, Repr

/-- The commands of PXC, one constructor per row of the opcode table (spec/30_encoding.md R55), with the header fields and
operand words each packet format gives them (R51, R52). WRAP also carries the words of its payload: `pal` and `data` (R58);
both are empty for a WRAP whose fixed part fails its checks, since such a packet consumes no payload (R60; DESIGN CHOICE,
notes/assumptions/11.md). -/
inductive Instr where
  | bpp (fmt : BitVec 8)
  | hasalpha (fmt : BitVec 8)
  | create (fmt : BitVec 8) (width height : Word)
  | wrap (fmt : BitVec 8) (plen : BitVec 9) (width height stride len : Word) (pal data : List Word)
  | getpixel (x y : Word)
  | setpixel (x y color : Word)
  | blendpixel (x y color ratio : Word)
  | drawbres (x0 y0 x1 y1 color : Word)
  | drawpoint (x0 y0 color : Word)
  | drawaaline (x0 y0 x1 y1 color : Word)
  deriving DecidableEq, Repr

end Sys2Proof
end

