-- ==== Sys2Proof/Machine/Operands.lean ====
section
/-!
DEFINITION. Every operand form of the spec (spec/30_encoding.md R53, R54, R58) and the pure checks on operands: the format
policy tables (spec/40_format_policy.md R70, R71; spec/20_memory.md R34), the stride rule (spec/41_buffer.md R81) and the
checks of CREATE and WRAP (R82, R84), which the decoder also runs (spec/30_encoding.md R60). Nothing here reads the state.
-/

namespace Sys2Proof.Machine

/-! ## Operand types (R53) -/

/-- `S32`: the word read as a two's-complement signed integer. -/
def s32 (w : Word) : Int := w.toInt

/-- `U32`: the word read as an unsigned integer. -/
def u32 (w : Word) : Nat := w.toNat

/-- `Q16(w) = sext_32(w) / 65536`, an exact rational. -/
def q16 (w : Word) : ℚ := (w.toInt : ℚ) / 65536

/-- `RQ(w) = zext_32(w) / 65536`, an exact rational; legal only for `zext_32(w) <= 65536`. -/
def ratioOf (w : Word) : ℚ := (w.toNat : ℚ) / 65536

/-- `ColorOf(w) = (w[31:24], w[23:16], w[15:8], w[7:0])`. -/
def colorOf (w : Word) : Color :=
  { a := w.extractLsb' 24 8, r := w.extractLsb' 16 8, g := w.extractLsb' 8 8, b := w.extractLsb' 0 8 }

/-- `WordOf((A,R,G,B)) = A ++ R ++ G ++ B`. -/
def wordOf (c : Color) : Word := c.a ++ c.r ++ c.g ++ c.b

/-- The transparent black of an out-of-bounds read, `(0,0,0,0)` (R100). -/
def transparentBlack : Color := { a := 0, r := 0, g := 0, b := 0 }

/-! ## The WRAP payload (R58) -/

/-- The four bytes of a data word, the byte in bits 7:0 first (R32, R58). -/
def wordBytes (w : Word) : List Byte :=
  [w.extractLsb' 0 8, w.extractLsb' 8 8, w.extractLsb' 16 8, w.extractLsb' 24 8]

/-- The `len` raw bytes packed in the data words; the unused high bytes of the last word are dropped (R58). -/
def payloadBytes (data : List Word) (len : Nat) : List Byte := (data.flatMap wordBytes).take len

/-- `ceil(LEN/4)`: how many data words carry `len` bytes (R58). -/
def dataWords (len : Nat) : Nat := (len + 3) / 4

/-! ## Format codes and the policy tables (R54, R70, R71, R34) -/

/-- The 2-bit code of a format, as the CSR `FORMAT` holds it (R13, R54). -/
def formatCode : PixelFormat → BitVec 2
  | .indexed8 => 0
  | .rgb24 => 1
  | .argb32 => 2
  | .argb64 => 3

/-- The format an 8-bit `FMT` field names; codes 4 to 255 name none and raise `UnsupportedFormat` (R54, R70, R71). -/
def lookupFormat (fmt : BitVec 8) : Except ErrCode PixelFormat :=
  match fmt.toNat with
  | 0 => .ok .indexed8
  | 1 => .ok .rgb24
  | 2 => .ok .argb32
  | 3 => .ok .argb64
  | _ => .error .unsupportedFormat

/-- `BytesPerPixel` of a known format (R70). -/
def formatBytes : PixelFormat → Nat
  | .indexed8 => 1
  | .rgb24 => 3
  | .argb32 => 4
  | .argb64 => 8

/-- `HasAlpha` of a known format (R71). -/
def formatAlpha : PixelFormat → Bool
  | .indexed8 => false
  | .rgb24 => false
  | .argb32 => true
  | .argb64 => true

/-- `BytesPerPixel(f)` of an 8-bit format code (R70). -/
def bytesPerPixel (fmt : BitVec 8) : Except ErrCode Nat := (lookupFormat fmt).map formatBytes

/-- `HasAlpha(f)` of an 8-bit format code (R71). -/
def hasAlpha (fmt : BitVec 8) : Except ErrCode Bool := (lookupFormat fmt).map formatAlpha

/-- The bytes a direct pixel access touches: 4 when the format has alpha, else 3 (R34, R102, R104). -/
def directBytes (f : PixelFormat) : Nat := if formatAlpha f then 4 else 3

/-! ## Buffer geometry from operands (R81, R82, R84) -/

/-- `CreateStride(f, w) = 4 * ceil(BytesPerPixel(f) * w / 4)` on mathematical integers (R81). -/
def createStride (f : PixelFormat) (width : Nat) : Nat :=
  Config.rowAlign * ((formatBytes f * width + (Config.rowAlign - 1)) / Config.rowAlign)

/-- `width <= 0 or height <= 0`, on the signed operand words (R82, R84, R152). -/
def badDimensions (width height : Word) : Bool := decide (s32 width ≤ 0 ∨ s32 height ≤ 0)

/-- The bytes a CREATE of this geometry needs: `stride * height` (R82). -/
def createBytes (f : PixelFormat) (width height : Word) : Nat := createStride f (u32 width) * u32 height

/-- The checks of CREATE in the order of R82: format, dimensions, capacity. -/
def createChecks (cfg : Config) (fmt : BitVec 8) (width height : Word) : Except ErrCode PixelFormat :=
  match lookupFormat fmt with
  | .error e => .error e
  | .ok f =>
    if badDimensions width height then .error .invalidDimensions
    else if cfg.pmemBytes.val < createBytes f width height then .error .capacityExceeded
    else .ok f

/-- `WrapChecks(fmt, width, height, stride, len)` in the order of R84: format, dimensions, length (on mathematical
integers), capacity. -/
def wrapChecks (cfg : Config) (fmt : BitVec 8) (width height stride len : Word) : Except ErrCode PixelFormat :=
  match lookupFormat fmt with
  | .error e => .error e
  | .ok f =>
    if badDimensions width height then .error .invalidDimensions
    else if (u32 len : Int) ≠ u32 stride * s32 height then .error .bufferSizeMismatch
    else if cfg.pmemBytes.val < u32 len then .error .capacityExceeded
    else .ok f

end Sys2Proof.Machine
end

