-- ==== Sys2Proof/WellFormed.lean ====
section
/-!
DEFINITION. Which terms of `Instr` are packets the spec's decoder can deliver (spec/30_encoding.md R57, R58, R60): a
BLENDPIXEL ratio of at most 1, a WRAP palette length of at most 256, and a WRAP payload that is there, with its exact
lengths, when the fixed part passes its checks and absent when it does not. Every other operand value is legal (R57). `exec` does not check this again (DESIGN CHOICE,
notes/assumptions/10.md).
-/

namespace Sys2Proof

/-- The payload of a WRAP agrees with its fixed part (R58, R60): `PLEN` palette words and `ceil(LEN/4)` data words if the
checks of R84 pass, nothing if they raise a fault. The checks depend on the capacity, hence on `cfg`. -/
def wrapPayloadOk (cfg : Config) (fmt : BitVec 8) (plen : BitVec 9) (width height stride len : Word)
    (pal data : List Word) : Bool :=
  match Machine.wrapChecks cfg fmt width height stride len with
  | .ok _ => decide (pal.length = plen.toNat ∧ data.length = Machine.dataWords (Machine.u32 len))
  | .error _ => decide (pal = [] ∧ data = [])

/-- The term is a packet of this machine (R57, R58, R60). -/
def WellFormed (cfg : Config) : Instr → Bool
  | .bpp _ => true
  | .hasalpha _ => true
  | .create _ _ _ => true
  | .wrap fmt plen width height stride len pal data =>
      decide (plen.toNat ≤ Config.palEntries) && wrapPayloadOk cfg fmt plen width height stride len pal data
  | .getpixel _ _ => true
  | .setpixel _ _ _ => true
  | .blendpixel _ _ _ ratio => decide (ratio.toNat ≤ 65536)
  | .drawbres _ _ _ _ _ => true
  | .drawpoint _ _ _ => true
  | .drawaaline _ _ _ _ _ => true

end Sys2Proof
end

