-- ==== Sys2Proof/Decode.lean ====
section
/-!
DEFINITION. The decoder of spec/30_encoding.md R60, total on any word sequence, and after it the encoder written from the
same tables (R51, R52, R55, R58).
-/

namespace Sys2Proof

/-- The opcodes of the ten rows of the opcode map (R55). -/
inductive Opcode where
  | bpp
  | hasalpha
  | create
  | wrap
  | getpixel
  | setpixel
  | blendpixel
  | drawbres
  | drawpoint
  | drawaaline
  deriving DecidableEq, Repr

/-- One row of the opcode map (R55): the header selects it when `(w0 & mask) = pattern`; `words` is the number of fixed
words of its packet format (R52). -/
structure OpcodeRow where
  op : Opcode
  mask : Word
  pattern : Word
  words : Nat
  deriving DecidableEq, Repr

/-- Why a packet is illegal: what raises `IllegalCommand` (R56, R57). -/
inductive IllegalWhy where
  /-- R56: the header selects no row of the opcode map. -/
  | noOpcodeRow
  /-- R57(a): a BLENDPIXEL ratio above 1. -/
  | ratioAboveOne
  /-- R57(b): a WRAP whose `PLEN` field is above 256. -/
  | paletteTooLong
  deriving DecidableEq, Repr

/-- What `Decode` answers (R60). -/
inductive Decoded where
  | needMore
  | illegal (why : IllegalWhy)
  | packet (i : Instr) (n : Nat)
  deriving DecidableEq, Repr

/-- The opcode map (R55), with the fixed words of R52. -/
def opcodeMap : List OpcodeRow :=
  [ { op := .bpp,        mask := 0xFFFF00FF#32, pattern := 0x00000001#32, words := 1 },
    { op := .hasalpha,   mask := 0xFFFF00FF#32, pattern := 0x00000002#32, words := 1 },
    { op := .create,     mask := 0xFFFF00FF#32, pattern := 0x00000010#32, words := 3 },
    { op := .wrap,       mask := 0xFE0000FF#32, pattern := 0x00000011#32, words := 5 },
    { op := .getpixel,   mask := 0xFFFFFFFF#32, pattern := 0x00000020#32, words := 3 },
    { op := .setpixel,   mask := 0xFFFFFFFF#32, pattern := 0x00000021#32, words := 4 },
    { op := .blendpixel, mask := 0xFFFFFFFF#32, pattern := 0x00000022#32, words := 5 },
    { op := .drawbres,   mask := 0xFFFFFFFF#32, pattern := 0x00000030#32, words := 6 },
    { op := .drawpoint,  mask := 0xFFFFFFFF#32, pattern := 0x00000031#32, words := 4 },
    { op := .drawaaline, mask := 0xFFFFFFFF#32, pattern := 0x00000032#32, words := 6 } ]

/-- The row a header word selects, if any (R55, R56). -/
def selectRow (w0 : Word) : Option OpcodeRow := opcodeMap.find? fun row => w0 &&& row.mask == row.pattern

/-- Header field `FMT`, bits 15:8 (R51). -/
def fmtField (w0 : Word) : BitVec 8 := w0.extractLsb' 8 8

/-- Header field `PLEN`, bits 24:16 (R51). -/
def plenField (w0 : Word) : BitVec 9 := w0.extractLsb' 16 9

/-- `ops[k]`, operand word `wk` of the packet whose header is followed by `ops` (R60). -/
def operand (ops : List Word) (k : Nat) : Word := ops.getD (k - 1) 0

/-- The WRAP part of `Decode`, once the five fixed words are there (R57(b), R60). `ops` is every word after the header. -/
def decodeWrap (cfg : Config) (w0 : Word) (ops : List Word) : Decoded :=
  let fmt := fmtField w0
  let plen := plenField w0
  let width := operand ops 1
  let height := operand ops 2
  let stride := operand ops 3
  let len := operand ops 4
  if Config.palEntries < plen.toNat then .illegal .paletteTooLong
  else
    match Machine.wrapChecks cfg fmt width height stride len with
    | .error _ => .packet (.wrap fmt plen width height stride len [] []) 0
    | .ok _ =>
      let nd := Machine.dataWords (Machine.u32 len)
      let payload := ops.drop 4
      if payload.length < plen.toNat + nd then .needMore
      else
        .packet
          (.wrap fmt plen width height stride len (payload.take plen.toNat) ((payload.drop plen.toNat).take nd))
          (5 + (plen.toNat + nd))

/-- `Decode` once the row is known and its fixed words are there (R57, R60). -/
def decodeOperands (cfg : Config) (op : Opcode) (w0 : Word) (ops : List Word) : Decoded :=
  match op with
  | .bpp => .packet (.bpp (fmtField w0)) 1
  | .hasalpha => .packet (.hasalpha (fmtField w0)) 1
  | .create => .packet (.create (fmtField w0) (operand ops 1) (operand ops 2)) 3
  | .wrap => decodeWrap cfg w0 ops
  | .getpixel => .packet (.getpixel (operand ops 1) (operand ops 2)) 3
  | .setpixel => .packet (.setpixel (operand ops 1) (operand ops 2) (operand ops 3)) 4
  | .blendpixel =>
    if 65536 < (operand ops 4).toNat then .illegal .ratioAboveOne
    else .packet (.blendpixel (operand ops 1) (operand ops 2) (operand ops 3) (operand ops 4)) 5
  | .drawbres =>
    .packet (.drawbres (operand ops 1) (operand ops 2) (operand ops 3) (operand ops 4) (operand ops 5)) 6
  | .drawpoint => .packet (.drawpoint (operand ops 1) (operand ops 2) (operand ops 3)) 4
  | .drawaaline =>
    .packet (.drawaaline (operand ops 1) (operand ops 2) (operand ops 3) (operand ops 4) (operand ops 5)) 6

/-- `Decode(stream, pos)` on the words `stream[pos ..]` (R60). -/
def decode (cfg : Config) : List Word → Decoded
  | [] => .needMore
  | w0 :: ops =>
    match selectRow w0 with
    | none => .illegal .noOpcodeRow
    | some row => if ops.length + 1 < row.words then .needMore else decodeOperands cfg row.op w0 ops

/-! ## The encoder -/

/-- A header word: `OPC` in bits 7:0, `FMT` in bits 15:8, `PLEN` in bits 24:16, bits 31:25 zero (R51). -/
def header (opc fmt : BitVec 8) (plen : BitVec 9) : Word := (0 : BitVec 7) ++ plen ++ fmt ++ opc

/-- The words of a packet, header first (R50 to R52, R55, R58). -/
def encode : Instr → List Word
  | .bpp fmt => [header 0x01 fmt 0]
  | .hasalpha fmt => [header 0x02 fmt 0]
  | .create fmt width height => [header 0x10 fmt 0, width, height]
  | .wrap fmt plen width height stride len pal data =>
      [header 0x11 fmt plen, width, height, stride, len] ++ pal ++ data
  | .getpixel x y => [header 0x20 0 0, x, y]
  | .setpixel x y color => [header 0x21 0 0, x, y, color]
  | .blendpixel x y color ratio => [header 0x22 0 0, x, y, color, ratio]
  | .drawbres x0 y0 x1 y1 color => [header 0x30 0 0, x0, y0, x1, y1, color]
  | .drawpoint x0 y0 color => [header 0x31 0 0, x0, y0, color]
  | .drawaaline x0 y0 x1 y1 color => [header 0x32 0 0, x0, y0, x1, y1, color]

/-- The opcode of a command. -/
def opcodeOf : Instr → Opcode
  | .bpp _ => .bpp
  | .hasalpha _ => .hasalpha
  | .create _ _ _ => .create
  | .wrap _ _ _ _ _ _ _ _ => .wrap
  | .getpixel _ _ => .getpixel
  | .setpixel _ _ _ => .setpixel
  | .blendpixel _ _ _ _ => .blendpixel
  | .drawbres _ _ _ _ _ => .drawbres
  | .drawpoint _ _ _ => .drawpoint
  | .drawaaline _ _ _ _ _ => .drawaaline

/-- The length the decoder reports for a well-formed packet: the number of its words, but 0 for a WRAP whose fixed part
fails its checks, which consumes nothing (R58, R60). -/
def packetLength (cfg : Config) (i : Instr) : Nat :=
  match i with
  | .wrap fmt _ width height stride len _ _ =>
    match Machine.wrapChecks cfg fmt width height stride len with
    | .ok _ => (encode i).length
    | .error _ => 0
  | _ => (encode i).length

/-! ## The opcode table's numbering -/

/-- The words of an instruction given as one number whose bit 0 is the least significant bit of the first word. Bits at and
above `nbits` are 0, and the words go on, as zeros, up to the longest fixed part (six words). -/
def tableWords (nbits w : Nat) : List Word :=
  (List.range (max 6 ((nbits + 31) / 32))).map fun k => BitVec.ofNat 32 ((w % 2 ^ nbits) >>> (32 * k))

/-- What the decoder reads from an instruction whose bits are `w`, numbered as spec/opcode_table.json numbers them. A WRAP of
zero operand words has `width = 0`, so it is the WRAP that raises `InvalidDimensions` and awaits no payload. -/
def decodeTableWord (nbits w : Nat) : Option Instr :=
  match decode Config.pxc1 (tableWords nbits w) with
  | .packet i _ => some i
  | _ => none

end Sys2Proof
end

