-- ==== Sys2Proof/Machine/State.lean ====
section
/-!
DEFINITION. The state of PXC as spec/10_state.md R10 lists it, plus the two inputs the step relation reads: the command
stream (R20) and the parameters (R26). The reasons the model can stop, and the state after reset (R25).
-/

namespace Sys2Proof.Machine

/-- PMEM as data: the bytes that differ from `unlistedByte`, addresses strictly rising. -/
abbrev Memory := List Host.Cell

/-- What an address that no cell lists reads as. DESIGN CHOICE (notes/assumptions/3.md), unsafe: the spec leaves PMEM
unspecified until CREATE or WRAP writes it (R18, R25), and no rule reads a byte before that. CREATE's zero fill is exact. -/
def unlistedByte : Byte := 0

/-- The architectural state (R10), each element under the spec's own name. -/
structure State where
  /-- `pos`: command words consumed since reset, a natural number (R11); `WCNT` is `pos mod 2^32`. -/
  pos : Nat
  /-- `STATUS.BOUND` (R12). -/
  bound : Bool
  /-- `STATUS.FAULT`, sticky (R12). -/
  fault : Bool
  /-- `STATUS.ERRCODE` (R12, R150). -/
  errcode : BitVec 4
  /-- `FORMAT`; its 2-bit code is `formatCode` (R13). -/
  format : PixelFormat
  /-- `WIDTH` (R14). -/
  width : Word
  /-- `HEIGHT` (R14). -/
  height : Word
  /-- `STRIDE` (R15). -/
  stride : Word
  /-- `DLEN` (R15). -/
  dlen : Word
  /-- `PLEN`, bits 8:0 of its CSR (R16). -/
  plen : BitVec 9
  /-- `PAL[0..255]` (R17). -/
  pal : Vector Word 256
  /-- `PMEM` (R18). -/
  pmem : Memory
  /-- `OUT`: words produced and not yet popped by the host, oldest first (R19); unbounded (DEDUCED, notes/assumptions/12.md). -/
  out : List Word
  /-- `stream`: every word the host has pushed since reset (R20). An input: the engine never writes it. That it stands in
  `State` is a DESIGN CHOICE (notes/assumptions/5.md). -/
  stream : List Word
  /-- The parameters of this machine (R26). No step and no reset writes them. -/
  cfg : Config
  deriving DecidableEq, Repr

/-- Why the engine has no step (DEDUCED, notes/assumptions/6.md). Neither is an instruction that stops: in both cases no
command is executed. -/
inductive Fault where
  /-- Raised by `step` when `STATUS.FAULT = 1`: "no step (halted until reset)" (R6, R156). Safe: the model stops exactly
  where the spec says the engine does. -/
  | halted
  /-- Raised by `step` when `Decode` answers `NeedMore`: "no step (the engine waits for words)" (R6). Safe: the host may push
  words (`hostPush`) and step again. -/
  | awaitingWords
  deriving DecidableEq, Repr

/-- Why an instruction has no meaning. -/
inductive Refusal where
  /-- Raised by `exec` for a command that is not modelled. No arm raises it: all ten commands are modelled. Safe. -/
  | notModelled (mnemonic : String)
  deriving DecidableEq, Repr

/-- The state after reset (R25, R180), for the default parameters. `PAL` and `PMEM` are unspecified there: the zeros are a
DESIGN CHOICE (notes/assumptions/3.md and 4.md), unsafe, and no rule reads them. -/
def State.reset : State :=
  { pos := 0
    bound := false
    fault := false
    errcode := 0
    format := .indexed8
    width := 0
    height := 0
    stride := 0
    dlen := 0
    plen := 0
    pal := Vector.replicate 256 0
    pmem := []
    out := []
    stream := []
    cfg := Config.pxc1 }

end Sys2Proof.Machine
end

