-- ==== Sys2Proof/Machine/Flags.lean ====
section
/-!
DEFINITION. PXC has no condition flags (spec/10_state.md R21), so no instruction computes one. What it has in their place are
the fields of `STATUS`: the fault codes (spec/60_exceptions.md R150) and the register's layout (spec/10_state.md R12).
-/

namespace Sys2Proof.Machine

/-- The `ERRCODE` of each fault cause (R150). -/
def errorCode : ErrCode → BitVec 4
  | .unsupportedFormat => 1
  | .invalidDimensions => 2
  | .bufferSizeMismatch => 3
  | .illegalCommand => 4
  | .noBuffer => 5
  | .indexedWriteTarget => 6
  | .paletteLookup => 7
  | .degenerateLine => 8
  | .accessFault => 9
  | .capacityExceeded => 10

/-- The word of the CSR `STATUS`: `BOUND` in bit 0, `FAULT` in bit 1, `ERRCODE` in bits 7:4, the rest 0 (R12). -/
def statusWord (bound fault : Bool) (errcode : BitVec 4) : Word :=
  (0 : BitVec 24) ++ errcode ++ (0 : BitVec 2) ++ BitVec.ofBool fault ++ BitVec.ofBool bound

end Sys2Proof.Machine
end

