-- ==== Sys2Proof/Machine/Ops.lean ====
section
/-!
DEFINITION. The named operations over the state: PMEM (`MemRead`, `MemWrite`, the zero fill and the load of
spec/20_memory.md R41 and spec/41_buffer.md R82, R84), PAL (R17), `OUT` (R19), the position (R11), and `raise`, which is the
whole of taking a fault (spec/60_exceptions.md R155). PXC has no return from a fault: reset is the only way out (R156).
-/

namespace Sys2Proof.Machine

/-! ## PMEM -/

/-- The byte at an address. Total on every address (DEDUCED, notes/assumptions/7.md): the access check keeps every access in
`0 .. DLEN-1` (R41). -/
def memRead : Memory → Nat → Byte
  | [], _ => unlistedByte
  | c :: cs, a => if c.1 = a then c.2 else memRead cs a

/-- The memory without any cell at an address. -/
def memErase (m : Memory) (a : Nat) : Memory := m.filter fun c => c.1 ≠ a

/-- Put a cell before the first cell whose address is not below its own. -/
def memInsert : Memory → Host.Cell → Memory
  | [], x => [x]
  | c :: cs, x => if c.1 < x.1 then c :: memInsert cs x else x :: c :: cs

/-- `PMEM[a] <- b`, keeping the canonical form: a byte equal to `unlistedByte` is not listed. -/
def memPut (m : Memory) (a : Nat) (b : Byte) : Memory :=
  if b = unlistedByte then memErase m a else memInsert (memErase m a) (a, b)

/-- `MemRead(addr, n)`: the bytes at `addr .. addr+n-1`, ascending (R41). -/
def memReadBytes (m : Memory) (addr n : Nat) : List Byte := (List.range n).map fun i => memRead m (addr + i)

/-- `MemWrite(addr, n, bytes)`: `PMEM[addr+i] <- b_i` in ascending order (R41). -/
def memWriteBytes : Memory → Nat → List Byte → Memory
  | m, _, [] => m
  | m, addr, b :: bs => memWriteBytes (memPut m addr b) (addr + 1) bs

/-- The cells at and above `n`. -/
def memFrom (m : Memory) (n : Nat) : Memory := m.filter fun c => n ≤ c.1

/-- The canonical cells of the bytes placed at `addr, addr+1, ...`. -/
def cellsOf : Nat → List Byte → Memory
  | _, [] => []
  | addr, b :: bs => if b = unlistedByte then cellsOf (addr + 1) bs else (addr, b) :: cellsOf (addr + 1) bs

/-- `for a = 0 .. n-1: PMEM[a] <- b[a]` with `n` the number of bytes (R84). -/
def memLoad (m : Memory) (bytes : List Byte) : Memory := cellsOf 0 bytes ++ memFrom m bytes.length

/-- `for a = 0 .. n-1: PMEM[a] <- 0` (R82). -/
def memZero (m : Memory) (n : Nat) : Memory := memLoad m (List.replicate n 0)

/-- The canonical form: addresses strictly rising, and no cell equal to what an unlisted address reads as. -/
abbrev memWf (m : Memory) : Prop := m.Pairwise (fun c d => c.1 < d.1) ∧ ∀ c ∈ m, c.2 ≠ unlistedByte

/-! ## PAL -/

/-- `for i = 0 .. plen-1: PAL[i] <- p[i]`; the other entries keep what they hold (R17, R84). -/
def palLoad (pal : Vector Word 256) (plen : Nat) (p : List Word) : Vector Word 256 :=
  Vector.ofFn fun i => if i.val < plen then p.getD i.val pal[i] else pal[i]

/-- `PAL[i]` for an index byte. -/
def palEntry (pal : Vector Word 256) (i : Byte) : Word := pal[i.toNat]'i.isLt

/-! ## The rest of the state -/

/-- The state with other PMEM contents. -/
def setPmem (m : Memory) (s : State) : State := { s with pmem := m }

/-- `OUT.push(v)` (R19). -/
def outPush (v : Word) (s : State) : State := { s with out := s.out ++ [v] }

/-- `raise F`: the fault is recorded in `STATUS` and nothing else moves; `pos` stays at the faulting header (R155). -/
def raise (e : ErrCode) (s : State) : State := { s with fault := true, errcode := errorCode e }

/-- The end of a step (R6): a command that raised no fault moves `pos` past its `n` words. -/
def retire (n : Nat) (s : State) : State := if s.fault then s else { s with pos := s.pos + n }

/-- Make a buffer: the six buffer CSRs and `BOUND` (the last lines of CREATE and WRAP, R82, R84). -/
def bindBuffer (f : PixelFormat) (width height stride dlen : Word) (plen : BitVec 9) (s : State) : State :=
  { s with format := f, width := width, height := height, stride := stride, dlen := dlen, plen := plen, bound := true }

/-! ## What the body of a command gives -/

/-- A command's body either runs to its end or raises a fault; `s` holds the writes made so far, which stay (R165). -/
inductive Ran where
  | done (s : State)
  | raised (e : ErrCode) (s : State)
  deriving DecidableEq, Repr

/-- The state a body leaves, before any fault is recorded. -/
def Ran.state : Ran → State
  | .done s => s
  | .raised _ s => s

/-- The step a body makes: its state, with the fault recorded if it raised one (R6, R155). -/
def Ran.outcome : Ran → Host.Outcome State Fault Refusal
  | .done s => .next s
  | .raised e s => .next (raise e s)

/-- Go on with `k` unless a fault was raised: "nothing after a `raise` in a pseudocode body is executed". -/
def Ran.andThen (r : Ran) (k : State → Ran) : Ran :=
  match r with
  | .done s => k s
  | .raised e s => .raised e s

/-- `if csr.STATUS.BOUND = 0: raise NoBuffer`, the first line of every pixel and draw command (R158). -/
def needBuffer (s : State) (k : State → Ran) : Ran := if s.bound then k s else .raised .noBuffer s

end Sys2Proof.Machine
end

