-- ==== Sys2Proof/Machine/Pixel.lean ====
section
/-!
DEFINITION. Pixel access and blending (spec/41_buffer.md R86, R87; spec/42_pixel_access.md R100 to R109): the internal
procedures `InBounds`, `PixelOffset`, `GetPixel`, `SetPixel`, `Mix`, `Blend`, and GETPIXEL, SETPIXEL, BLENDPIXEL.
-/

namespace Sys2Proof.Machine

/-! ## Geometry -/

/-- `InBounds(x, y)` for integers of any size (R87). -/
def inBounds (s : State) (x y : Int) : Bool :=
  !(decide (x < 0) || decide (y < 0) || decide ((s.width.toNat : Int) ≤ x) || decide ((s.height.toNat : Int) ≤ y))

/-- `PixelOffset(x, y) = STRIDE*y + BytesPerPixel(FORMAT)*x`, called only for in-bounds pixels (R86). -/
def pixelOffset (s : State) (x y : Int) : Nat := s.stride.toNat * y.toNat + formatBytes s.format * x.toNat

/-! ## Reading -/

/-- `DirectRead(o)` (R102). -/
def directRead (s : State) (o : Nat) : Except ErrCode Color :=
  if s.dlen.toNat < o + directBytes s.format then .error .accessFault
  else
    .ok
      { b := memRead s.pmem o
        g := memRead s.pmem (o + 1)
        r := memRead s.pmem (o + 2)
        a := if formatAlpha s.format then memRead s.pmem (o + 3) else 255 }

/-- `PaletteRead(o)` (R103). -/
def paletteRead (s : State) (o : Nat) : Except ErrCode Color :=
  if s.dlen.toNat < o + 1 then .error .accessFault
  else
    let i := memRead s.pmem o
    if s.plen.toNat ≤ i.toNat then .error .paletteLookup else .ok (colorOf (palEntry s.pal i))

/-- `GetPixel(x, y)` (R100). -/
def getPixel (s : State) (x y : Int) : Except ErrCode Color :=
  if inBounds s x y then
    match s.format with
    | .indexed8 => paletteRead s (pixelOffset s x y)
    | _ => directRead s (pixelOffset s x y)
  else .ok transparentBlack

/-! ## Writing -/

/-- The bytes `SetPixel` stores: B, G, R, then A when the format has alpha (R31, R104). -/
def pixelBytes (f : PixelFormat) (c : Color) : List Byte :=
  if formatAlpha f then [c.b, c.g, c.r, c.a] else [c.b, c.g, c.r]

/-- `SetPixel(x, y, color)` (R104, R105). -/
def setPixel (x y : Int) (c : Color) (s : State) : Ran :=
  if inBounds s x y then
    match s.format with
    | .indexed8 => .raised .indexedWriteTarget s
    | f =>
      let o := pixelOffset s x y
      if s.dlen.toNat < o + directBytes f then .raised .accessFault s
      else .done (setPmem (memWriteBytes s.pmem o (pixelBytes f c)) s)
  else .done s

/-! ## Blending -/

/-- `Mix(o, c, ratio) = floor((1 - ratio) * o + ratio * c)`, exact (R108). -/
def mix (o c : Byte) (ratio : ℚ) : Byte :=
  BitVec.ofInt 8 ⌊(1 - ratio) * (o.toNat : ℚ) + ratio * (c.toNat : ℚ)⌋

/-- The colour a blend writes: R, G, B mixed, alpha 255 (R107). -/
def mixColor (old c : Color) (ratio : ℚ) : Color :=
  { a := 255, r := mix old.r c.r ratio, g := mix old.g c.g ratio, b := mix old.b c.b ratio }

/-- `Blend(x, y, color, ratio)` (R107). -/
def blend (x y : Int) (c : Color) (ratio : ℚ) (s : State) : Ran :=
  if inBounds s x y then
    if ratio = 0 then .done s
    else
      match getPixel s x y with
      | .error e => .raised e s
      | .ok old => setPixel x y (mixColor old c ratio) s
  else .done s

/-! ## Runs of pixel accesses, for the draw commands -/

/-- One call of `Blend` in a draw command: the pixel and its weight. -/
structure Splat where
  x : Int
  y : Int
  w : ℚ
  deriving DecidableEq, Repr

/-- `SetPixel` of one colour on each pixel in turn, until a fault is raised. -/
def setAll (c : Color) : List (Int × Int) → State → Ran
  | [], s => .done s
  | p :: ps, s => (setPixel p.1 p.2 c s).andThen (setAll c ps)

/-- `Blend` toward one colour at each pixel in turn, until a fault is raised. -/
def blendAll (c : Color) : List Splat → State → Ran
  | [], s => .done s
  | p :: ps, s => (blend p.x p.y c p.w s).andThen (blendAll c ps)

/-! ## The commands -/

/-- GETPIXEL (R101). -/
def execGetpixel (x y : Word) (s : State) : Host.Outcome State Fault Refusal :=
  (needBuffer s fun s =>
    match getPixel s (s32 x) (s32 y) with
    | .error e => .raised e s
    | .ok c => .done (outPush (wordOf c) s)).outcome

/-- SETPIXEL (R106). -/
def execSetpixel (x y color : Word) (s : State) : Host.Outcome State Fault Refusal :=
  (needBuffer s (setPixel (s32 x) (s32 y) (colorOf color))).outcome

/-- BLENDPIXEL (R109). -/
def execBlendpixel (x y color ratio : Word) (s : State) : Host.Outcome State Fault Refusal :=
  (needBuffer s (blend (s32 x) (s32 y) (colorOf color) (ratioOf ratio))).outcome

end Sys2Proof.Machine
end

