-- ==== Sys2Proof/Machine/Bresenham.lean ====
section
/-!
DEFINITION. The Bresenham line (spec/43_bresenham.md R120 to R123): the normative loop on an exact error accumulator, the
integer form the spec gives beside it, and DRAWBRES. The initial values and the order within a step are the spec's item G1
(PRESUMED by the spec itself, notes/assumptions/14.md).
-/

namespace Sys2Proof.Machine

/-- The loop of R121 for `n` columns from `x`: the pixels written, in order. Each step writes `(x, y)`, then adds `deltaerr`,
then tests the threshold once. -/
def bresLoop (deltaerr : ℚ) : Nat → Int → Int → ℚ → List (Int × Int)
  | 0, _, _, _ => []
  | n + 1, x, y, error =>
    (x, y) ::
      (if 1 / 2 ≤ error + deltaerr then bresLoop deltaerr n (x + 1) (y + 1) (error + deltaerr - 1)
      else bresLoop deltaerr n (x + 1) y (error + deltaerr))

/-- The pixels DRAWBRES writes for `deltaX ≠ 0`: `error` starts at 0, `y` at `y0`, `x` ascends from `x0` to `x1-1` (R121). -/
def bresPixels (x0 y0 x1 y1 : Int) : List (Int × Int) :=
  bresLoop (|((y1 - y0 : Int) : ℚ)| / |((x1 - x0 : Int) : ℚ)|) (x1 - x0).toNat x0 y0 0

/-- The integer form of the loop (R123), on `E = 2 * abs(deltaX) * error`. -/
def bresIntLoop (adx ady : Int) : Nat → Int → Int → Int → List (Int × Int)
  | 0, _, _, _ => []
  | n + 1, x, y, e =>
    (x, y) ::
      (if adx ≤ e + 2 * ady then bresIntLoop adx ady n (x + 1) (y + 1) (e + 2 * ady - 2 * adx)
      else bresIntLoop adx ady n (x + 1) y (e + 2 * ady))

/-- The pixels of the integer form (R123). -/
def bresIntPixels (x0 y0 x1 y1 : Int) : List (Int × Int) :=
  bresIntLoop |x1 - x0| |y1 - y0| (x1 - x0).toNat x0 y0 0

/-- DRAWBRES (R121). -/
def execDrawbres (x0 y0 x1 y1 color : Word) (s : State) : Host.Outcome State Fault Refusal :=
  (needBuffer s fun s =>
    if s32 x1 - s32 x0 = 0 then .raised .degenerateLine s
    else setAll (colorOf color) (bresPixels (s32 x0) (s32 y0) (s32 x1) (s32 y1)) s).outcome

end Sys2Proof.Machine
end

