-- ==== Sys2Proof/Machine/Buffer.lean ====
section
/-!
DEFINITION. Buffer construction: CREATE and WRAP (spec/41_buffer.md R80, R82, R84).
-/

namespace Sys2Proof.Machine

/-- CREATE (R82): the checks, the zero fill of PMEM bytes `0 .. dlen-1`, the buffer CSRs. `PAL` is not written. -/
def execCreate (fmt : BitVec 8) (width height : Word) (s : State) : Host.Outcome State Fault Refusal :=
  (match createChecks s.cfg fmt width height with
    | .error e => Ran.raised e s
    | .ok f =>
      let dlen := createBytes f width height
      Ran.done
        (bindBuffer f width height (BitVec.ofNat 32 (createStride f (u32 width))) (BitVec.ofNat 32 dlen) 0
          (setPmem (memZero s.pmem dlen) s))).outcome

/-- WRAP (R84): the checks, the load of `PAL[0 .. plen-1]` and of PMEM bytes `0 .. len-1`, the buffer CSRs. -/
def execWrap (fmt : BitVec 8) (plen : BitVec 9) (width height stride len : Word) (pal data : List Word) (s : State) :
    Host.Outcome State Fault Refusal :=
  (match wrapChecks s.cfg fmt width height stride len with
    | .error e => Ran.raised e s
    | .ok f =>
      Ran.done
        (bindBuffer f width height stride len plen
          (setPmem (memLoad s.pmem (payloadBytes data (u32 len)))
            { s with pal := palLoad s.pal plen.toNat pal }))).outcome

end Sys2Proof.Machine
end

