-- ==== Sys2Proof/Machine/Policy.lean ====
section
/-!
DEFINITION. The format policy queries BPP and HASALPHA (spec/40_format_policy.md R72, R73). They need no buffer.
-/

namespace Sys2Proof.Machine

/-- BPP (R72). -/
def execBpp (fmt : BitVec 8) (s : State) : Host.Outcome State Fault Refusal :=
  (match bytesPerPixel fmt with
    | .error e => Ran.raised e s
    | .ok n => Ran.done (outPush (BitVec.ofNat 32 n) s)).outcome

/-- HASALPHA (R73). -/
def execHasalpha (fmt : BitVec 8) (s : State) : Host.Outcome State Fault Refusal :=
  (match hasAlpha fmt with
    | .error e => Ran.raised e s
    | .ok a => Ran.done (outPush (if a then 1 else 0) s)).outcome

end Sys2Proof.Machine
end

