-- ==== Sys2Proof/Machine/Wu.lean ====
section
/-!
DEFINITION. The antialiased rasterizer (spec/44_wu.md R130 to R138): fractional parts, the tent weights, the point splat, the
Wu line, and DRAWPOINT and DRAWAALINE. A draw command is the list of its `Blend` calls, in order, and their execution (DEDUCED,
notes/assumptions/9.md).
-/

namespace Sys2Proof.Machine

/-! ## Integer and fractional parts (R130) -/

/-- `ipart(v) = floor(v)`. -/
def ipart (v : ℚ) : Int := ⌊v⌋

/-- `fpart(v) = v - floor(v)`. -/
def fpart (v : ℚ) : ℚ := v - (⌊v⌋ : ℚ)

/-- `rfpart(v) = 1 - fpart(v)`. -/
def rfpart (v : ℚ) : ℚ := 1 - fpart v

/-- `round(v) = floor(v + 1/2)`: halves round up. The spec's item G2 (PRESUMED by the spec itself, notes/assumptions/14.md). -/
def roundHalfUp (v : ℚ) : Int := ⌊v + 1 / 2⌋

/-! ## The point splat -/

/-- The weights of the lower neighbour, the middle pixel and the upper neighbour along one axis. -/
structure TentWeights where
  lower : ℚ
  middle : ℚ
  upper : ℚ
  deriving DecidableEq, Repr

/-- `Tent(f)` for `f` in `[0, 1)` (R131). -/
def tent (f : ℚ) : TentWeights :=
  if f = 1 / 2 then { lower := 0, middle := 1, upper := 0 }
  else if f < 1 / 2 then { lower := 1 / 2 - f, middle := 1 / 2 + f, upper := 0 }
  else { lower := 0, middle := 3 / 2 - f, upper := f - 1 / 2 }

/-- The three blends of one row of the splat, left to right (R132). -/
def splatRow (px y : Int) (wx : TentWeights) (wy : ℚ) : List Splat :=
  [ { x := px - 1, y := y, w := wx.lower * wy },
    { x := px, y := y, w := wx.middle * wy },
    { x := px + 1, y := y, w := wx.upper * wy } ]

/-- The nine `Blend` calls of `DrawPoint(x0, y0, color)`, row-major, top row first (R132). -/
def pointSplats (x0 y0 : ℚ) : List Splat :=
  let px := ⌊x0⌋
  let py := ⌊y0⌋
  let wx := tent (x0 - px)
  let wy := tent (y0 - py)
  splatRow px (py - 1) wx wy.lower ++ splatRow px py wx wy.middle ++ splatRow px (py + 1) wx wy.upper

/-! ## The line, in primary and secondary coordinates -/

/-- The two blends at one column: the lower pixel, then the upper (R136, R137). -/
def columnSplats (a : Int) (b gap : ℚ) : List Splat :=
  [ { x := a, y := ⌊b⌋, w := rfpart b * gap },
    { x := a, y := ⌊b⌋ + 1, w := fpart b * gap } ]

/-- The main loop over `n` columns from `a` (R137). -/
def wuLoop (gradient : ℚ) : Nat → Int → ℚ → List Splat
  | 0, _, _ => []
  | n + 1, a, intery => columnSplats a intery 1 ++ wuLoop gradient n (a + 1) (intery + gradient)

/-- `yend` at an endpoint: the secondary coordinate at the rounded column (R136). -/
def yendAt (x y gradient : ℚ) : ℚ := y + gradient * ((roundHalfUp x : ℚ) - x)

/-- Steps 3 to 5 of R135 for `x0 < x1`: first endpoint, second endpoint, main loop (R136, R137). The gap factors, the start of
`intery` and the order are the spec's item G3 (PRESUMED by the spec itself, notes/assumptions/14.md). -/
def wuSpine (x0 y0 x1 y1 : ℚ) : List Splat :=
  let gradient := (y1 - y0) / (x1 - x0)
  let xpxl1 := roundHalfUp x0
  let xpxl2 := roundHalfUp x1
  columnSplats xpxl1 (yendAt x0 y0 gradient) (rfpart (x0 + 1 / 2)) ++
    columnSplats xpxl2 (yendAt x1 y1 gradient) (fpart (x1 + 1 / 2)) ++
    wuLoop gradient (xpxl2 - xpxl1 - 1).toNat (xpxl1 + 1) (yendAt x0 y0 gradient + gradient)

/-- Step 2 of R135: exchange the endpoints unless `x0 <= x1`. -/
def wuOrdered (x0 y0 x1 y1 : ℚ) : List Splat :=
  if x1 < x0 then wuSpine x1 y1 x0 y0 else wuSpine x0 y0 x1 y1

/-- Step 1 of R135: `steep = abs(y1 - y0) > abs(x1 - x0)`. -/
def isSteep (x0 y0 x1 y1 : ℚ) : Bool := decide (|x1 - x0| < |y1 - y0|)

/-- `Plot(a, b, w)` on a steep line: the pixel is `(b, a)` (R138). -/
def swapAxes (p : Splat) : Splat := { x := p.y, y := p.x, w := p.w }

/-- The `Blend` calls of a DRAWAALINE whose endpoints differ (R135). -/
def lineSplats (x0 y0 x1 y1 : ℚ) : List Splat :=
  if isSteep x0 y0 x1 y1 then (wuOrdered y0 x0 y1 x1).map swapAxes else wuOrdered x0 y0 x1 y1

/-- The `Blend` calls of DRAWAALINE: the nine of `DrawPoint` for the degenerate single-point call, else the line's (R135). -/
def aalineSplats (x0 y0 x1 y1 : ℚ) : List Splat :=
  if x0 = x1 ∧ y0 = y1 then pointSplats x0 y0 else lineSplats x0 y0 x1 y1

/-! ## The commands -/

/-- DRAWPOINT (R133). -/
def execDrawpoint (x0 y0 color : Word) (s : State) : Host.Outcome State Fault Refusal :=
  (needBuffer s (blendAll (colorOf color) (pointSplats (q16 x0) (q16 y0)))).outcome

/-- DRAWAALINE (R135). -/
def execDrawaaline (x0 y0 x1 y1 color : Word) (s : State) : Host.Outcome State Fault Refusal :=
  (needBuffer s (blendAll (colorOf color) (aalineSplats (q16 x0) (q16 y0) (q16 x1) (q16 y1)))).outcome

end Sys2Proof.Machine
end

