-- ==== Sys2Proof/Machine/Dispatch.lean ====
section
/-!
DEFINITION. `Execute(cmd)` of spec/00_scope.md R6: one arm per command, each a direct call of its meaning.
-/

namespace Sys2Proof.Machine

def exec (i : Instr) (s : State) : Host.Outcome State Fault Refusal :=
  match i with
  | .bpp fmt => Sys2Proof.Machine.execBpp fmt s
  | .hasalpha fmt => Sys2Proof.Machine.execHasalpha fmt s
  | .create fmt width height => Sys2Proof.Machine.execCreate fmt width height s
  | .wrap fmt plen width height stride len pal data => Sys2Proof.Machine.execWrap fmt plen width height stride len pal data s
  | .getpixel x y => Sys2Proof.Machine.execGetpixel x y s
  | .setpixel x y color => Sys2Proof.Machine.execSetpixel x y color s
  | .blendpixel x y color ratio => Sys2Proof.Machine.execBlendpixel x y color ratio s
  | .drawbres x0 y0 x1 y1 color => Sys2Proof.Machine.execDrawbres x0 y0 x1 y1 color s
  | .drawpoint x0 y0 color => Sys2Proof.Machine.execDrawpoint x0 y0 color s
  | .drawaaline x0 y0 x1 y1 color => Sys2Proof.Machine.execDrawaaline x0 y0 x1 y1 color s

end Sys2Proof.Machine
end

