-- ==== Sys2Proof/Machine/Fetch.lean ====
section
/-!
DEFINITION. The command port as the engine sees it (spec/00_scope.md R6, spec/10_state.md R20): fetching the packet at `pos`,
what an illegal packet does, and placing words where the next fetch reads.
-/

namespace Sys2Proof.Machine

/-- The words the engine has not consumed: `stream[pos ..]`. -/
def pending (s : State) : List Word := s.stream.drop s.pos

/-- `Decode(stream, pos)` (R60). -/
def fetch (s : State) : Decoded := decode s.cfg (pending s)

/-- `Illegal: raise IllegalCommand` (R6, R157). -/
def execIllegal (s : State) : State := raise .illegalCommand s

/-- The end of a step on what a command gave (R6). -/
def finishStep (n : Nat) : Host.Outcome State Fault Refusal → Host.Outcome State Fault Refusal
  | .next s => .next (retire n s)
  | .fault r => .fault r
  | .refused r => .refused r

/-- `words` placed at `stream[pos ..]`, over whatever stood there; words already consumed stay. If `pos` lies beyond the
stream (no reachable state does), the gap is filled with zero words. -/
def placeWords (s : State) (words : List Word) : State :=
  { s with
    stream :=
      s.stream.take s.pos ++ List.replicate (s.pos - s.stream.length) 0 ++ words ++
        s.stream.drop (s.pos + words.length) }

end Sys2Proof.Machine
end

