-- ==== Sys2Proof/Machine/Step.lean ====
section
/-!
DEFINITION. The step relation of spec/00_scope.md R6, and the host's way to place one instruction where it fetches.
-/

namespace Sys2Proof.Machine

/-- One step of the command engine (R6). -/
def step (s : State) : Host.Outcome State Fault Refusal :=
  if s.fault then .fault .halted
  else
    match fetch s with
    | .needMore => .fault .awaitingWords
    | .illegal _ => .next (execIllegal s)
    | .packet i n => finishStep n (exec i s)

/-- `s` with an instruction, numbered as spec/opcode_table.json numbers it, stored where `step` fetches its next packet. -/
def State.withFetchWord (s : State) (nbits w : Nat) : State := placeWords s (tableWords nbits w)

end Sys2Proof.Machine
end

