-- ==== Sys2Proof/Machine/HostPort.lean ====
section
/-!
DEFINITION. What the host can do to the block (spec/00_scope.md R5: "exactly four things"): push a command word, pop an `OUT`
word, read a CSR, assert reset. They are inputs, not steps of the engine, and act between steps (DEDUCED,
notes/assumptions/13.md).
-/

namespace Sys2Proof.Machine

/-- Push a command word on the command port (R20). -/
def hostPush (w : Word) (s : State) : State := { s with stream := s.stream ++ [w] }

/-- Push a sequence of command words, first word first (R20, R50). -/
def hostPushAll (ws : List Word) (s : State) : State := { s with stream := s.stream ++ ws }

/-- Pop the oldest `OUT` word (R19). What a pop of an empty `OUT` does is a DESIGN CHOICE (notes/assumptions/15.md), safe: the
spec is silent on it, and the model answers `none`, no word and no next state. -/
def hostPop (s : State) : Option (Word × State) :=
  match s.out with
  | [] => none
  | v :: vs => some (v, { s with out := vs })

/-- The CSR `WCNT` = `pos mod 2^32` (R11). -/
def wcnt (s : State) : Word := BitVec.ofNat 32 s.pos

/-- The host's read of the CSR space at a byte offset: the map of R22, any other offset 0; no side effect. -/
def csrRead (s : State) (offset : Nat) : Word :=
  match offset with
  | 0x00 => statusWord s.bound s.fault s.errcode
  | 0x04 => wcnt s
  | 0x08 => (formatCode s.format).setWidth 32
  | 0x0C => s.width
  | 0x10 => s.height
  | 0x14 => s.stride
  | 0x18 => s.plen.setWidth 32
  | 0x1C => s.dlen
  | _ => 0

/-- Assert reset: the state of R25 for this machine's parameters (R180). What it leaves in `PAL` and PMEM is a DESIGN CHOICE
(notes/assumptions/8.md), unsafe. -/
def hostReset (s : State) : State := { State.reset with cfg := s.cfg }

end Sys2Proof.Machine
end

