-- ==== Sys2Proof/Safety.lean ====
section
/-!
DEFINITION. The terms claims are stated in: the end of a run (spec/00_scope.md R7), the states a reset can leave
(spec/10_state.md R25), the invariants (R23), well-formed buffers (spec/20_memory.md R36), and the buffer as an image.
-/

namespace Sys2Proof.Machine

/-- A run is over: no fault, and every pushed word consumed (R7). -/
def RunOver (s : State) : Prop := s.fault = false ∧ s.pos = s.stream.length

/-- What reset leaves, and no more: `PAL` and PMEM contents are unspecified (R25, R180), so they are free here. -/
def AfterReset (s : State) : Prop :=
  s.pos = 0 ∧ s.bound = false ∧ s.fault = false ∧ s.errcode = 0 ∧ s.format = .indexed8 ∧ s.width = 0 ∧ s.height = 0 ∧
    s.stride = 0 ∧ s.dlen = 0 ∧ s.plen = 0 ∧ s.out = [] ∧ s.stream = []

/-- R23 (b) to (e), with the ranges R14 and R16 give the registers. (a) holds by the type of `format`. -/
def BufferInv (s : State) : Prop :=
  s.bound = true →
    1 ≤ s.width.toNat ∧ s.width.toNat < 2 ^ 31 ∧ 1 ≤ s.height.toNat ∧ s.height.toNat < 2 ^ 31 ∧
      s.dlen.toNat = s.stride.toNat * s.height.toNat ∧ s.dlen.toNat ≤ s.cfg.pmemBytes.val ∧
      s.plen.toNat ≤ Config.palEntries

/-- The fault record: no fault and code 0, or a fault and one of the codes 1 to 10 (R12, R150). -/
def FaultRecordInv (s : State) : Prop :=
  (s.fault = false ∧ s.errcode = 0) ∨ (s.fault = true ∧ 1 ≤ s.errcode.toNat ∧ s.errcode.toNat ≤ 10)

/-- The invariant of the machine: the memory in canonical form inside PMEM, R23, the fault record, and `pos` within the
stream (R11). -/
structure Inv (s : State) : Prop where
  memory : memWf s.pmem
  capacity : ∀ c ∈ s.pmem, c.1 < s.cfg.pmemBytes.val
  buffer : BufferInv s
  record : FaultRecordInv s
  position : s.pos ≤ s.stream.length

/-- A buffer is well-formed: bound, `DLEN = STRIDE * HEIGHT` (R15), and `STRIDE >= BytesPerPixel(FORMAT) * WIDTH` (R36). -/
def WellFormedBuffer (s : State) : Prop :=
  s.bound = true ∧ s.dlen.toNat = s.stride.toNat * s.height.toNat ∧
    formatBytes s.format * s.width.toNat ≤ s.stride.toNat

/-- A well-formed buffer of a direct format: the buffers every draw command can draw on. -/
def DirectBuffer (s : State) : Prop := WellFormedBuffer s ∧ s.format ≠ .indexed8

/-- `t` differs from `s` in the contents of PMEM at most. -/
def OnlyPmem (s t : State) : Prop := t = { s with pmem := t.pmem }

/-- The bytes of the pixel `(x, y)` that pixel commands access in a direct format (R34). -/
abbrev PixelByte (s : State) (x y : Int) (a : Nat) : Prop :=
  pixelOffset s x y ≤ a ∧ a < pixelOffset s x y + directBytes s.format

/-- The access check of R34 passes for the pixel `(x, y)` of a direct format: its accessed bytes lie in `0 .. DLEN-1`. -/
abbrev PixelFits (s : State) (x y : Int) : Prop := pixelOffset s x y + directBytes s.format ≤ s.dlen.toNat

/-- The byte of a colour at offset `j` of a pixel: B, G, R, then A (R31). -/
def colorByte (c : Color) : Nat → Byte
  | 0 => c.b
  | 1 => c.g
  | 2 => c.r
  | _ => c.a

/-- What `SetPixel` of `c` at each pixel in turn makes of the byte at `a`, on a direct format: each in-bounds pixel that
contains it stores its byte of the colour there (R104). Pixels may overlap (R36). -/
def storedByte (s : State) (c : Color) (a : Nat) : List (Int × Int) → Byte → Byte
  | [], old => old
  | p :: ps, old =>
    storedByte s c a ps
      (if inBounds s p.1 p.2 = true ∧ PixelByte s p.1 p.2 a then colorByte c (a - pixelOffset s p.1 p.2) else old)

/-- What `Blend` toward `c` at each pixel in turn makes of the byte at `a`, on a direct format: each in-bounds pixel that
contains it and has a non-zero weight mixes a B, G or R byte and sets an alpha byte to 255 (R107). Pixels may overlap (R36). -/
def blendedByte (s : State) (c : Color) (a : Nat) : List Splat → Byte → Byte
  | [], old => old
  | p :: ps, old =>
    blendedByte s c a ps
      (if p.w ≠ 0 ∧ inBounds s p.x p.y = true ∧ PixelByte s p.x p.y a then
        (if a - pixelOffset s p.x p.y < 3 then mix old (colorByte c (a - pixelOffset s p.x p.y)) p.w else 255)
      else old)

/-- The colour a pixel reads as once `c` is stored in it: alpha 255 in a format without alpha (R102, R104). -/
def storedColor (f : PixelFormat) (c : Color) : Color := if formatAlpha f then c else { c with a := 255 }

/-- `t` is `s` but for the bytes of PMEM that no pixel command accesses in a direct format: row padding, bytes 4 to 7 of an
Argb64 pixel, and everything beyond the buffer (R42). -/
def SamePixels (s t : State) : Prop :=
  OnlyPmem s t ∧
    ∀ x y a, inBounds s x y = true → PixelByte s x y a → memRead t.pmem a = memRead s.pmem a

/-- The command is a pixel or draw command (R80, R158). -/
def isPixelCommand : Instr → Bool
  | .bpp _ => false
  | .hasalpha _ => false
  | .create _ _ _ => false
  | .wrap _ _ _ _ _ _ _ _ => false
  | .getpixel _ _ => true
  | .setpixel _ _ _ => true
  | .blendpixel _ _ _ _ => true
  | .drawbres _ _ _ _ _ => true
  | .drawpoint _ _ _ => true
  | .drawaaline _ _ _ _ _ => true

/-- The command is a rasterizer (R120 to R142). -/
def isDraw : Instr → Bool
  | .bpp _ => false
  | .hasalpha _ => false
  | .create _ _ _ => false
  | .wrap _ _ _ _ _ _ _ _ => false
  | .getpixel _ _ => false
  | .setpixel _ _ _ => false
  | .blendpixel _ _ _ _ => false
  | .drawbres _ _ _ _ _ => true
  | .drawpoint _ _ _ => true
  | .drawaaline _ _ _ _ _ => true

/-- The two pixels that straddle the ordinate `b` in column `a`, with its fractional part and the complement, times `gap`, as
weights (R136, R137). -/
def straddling (a : Int) (b gap : ℚ) : List Splat :=
  [ { x := a, y := ⌊b⌋, w := (1 - (b - ⌊b⌋)) * gap },
    { x := a, y := ⌊b⌋ + 1, w := (b - ⌊b⌋) * gap } ]

/-- The blends of a Wu line in closed form, for `x0 < x1` along the axis of greater extent (R136, R137 "a model may use the
closed form"): the first endpoint's column, the second's, and the columns between them in ascending order, each straddling the
exact line at the integer abscissa `a`. -/
def lineBlends (x0 y0 x1 y1 : ℚ) : List Splat :=
  let lineAt (a : Int) : ℚ := y0 + (y1 - y0) / (x1 - x0) * (a - x0)
  let first : Int := ⌊x0 + 1 / 2⌋
  let last : Int := ⌊x1 + 1 / 2⌋
  straddling first (lineAt first) (1 - (x0 + 1 / 2 - first)) ++
    straddling last (lineAt last) (x1 + 1 / 2 - last) ++
    (List.range (last - first - 1).toNat).flatMap fun k : Nat => straddling (first + 1 + k) (lineAt (first + 1 + k)) 1

/-- The blend is one that accesses a pixel: in bounds, with a non-zero weight (R107). -/
def accesses (s : State) (p : Splat) : Bool := decide (p.w ≠ 0) && inBounds s p.x p.y

/-- The pixels of a list of blends that have a non-zero weight. -/
def activePixels (ps : List Splat) : List (Int × Int) := (ps.filter fun p => p.w ≠ 0).map fun p => (p.x, p.y)

/-- The pixels a draw command may access, in order, wherever they lie: those of R121, and those of R132 and R135 with a
non-zero weight. Other commands draw none. -/
def drawnPixels : Instr → List (Int × Int)
  | .bpp _ => []
  | .hasalpha _ => []
  | .create _ _ _ => []
  | .wrap _ _ _ _ _ _ _ _ => []
  | .getpixel _ _ => []
  | .setpixel _ _ _ => []
  | .blendpixel _ _ _ _ => []
  | .drawbres x0 y0 x1 y1 _ => bresPixels x0.toInt y0.toInt x1.toInt y1.toInt
  | .drawpoint x0 y0 _ => activePixels (pointSplats (q16 x0) (q16 y0))
  | .drawaaline x0 y0 x1 y1 _ => activePixels (aalineSplats (q16 x0) (q16 y0) (q16 x1) (q16 y1))

/-- The command answers through `OUT` (R19). -/
def pushesOut : Instr → Bool
  | .bpp _ => true
  | .hasalpha _ => true
  | .create _ _ _ => false
  | .wrap _ _ _ _ _ _ _ _ => false
  | .getpixel _ _ => true
  | .setpixel _ _ _ => false
  | .blendpixel _ _ _ _ => false
  | .drawbres _ _ _ _ _ => false
  | .drawpoint _ _ _ => false
  | .drawaaline _ _ _ _ _ => false

/-- The 8-bit `FMT` operand a command looks up, if it has one (R51, R151). -/
def formatOperand : Instr → Option (BitVec 8)
  | .bpp fmt => some fmt
  | .hasalpha fmt => some fmt
  | .create fmt _ _ => some fmt
  | .wrap fmt _ _ _ _ _ _ _ => some fmt
  | .getpixel _ _ => none
  | .setpixel _ _ _ => none
  | .blendpixel _ _ _ _ => none
  | .drawbres _ _ _ _ _ => none
  | .drawpoint _ _ _ => none
  | .drawaaline _ _ _ _ _ => none

/-- The command constructs a buffer (R80). -/
def isConstruction : Instr → Bool
  | .bpp _ => false
  | .hasalpha _ => false
  | .create _ _ _ => true
  | .wrap _ _ _ _ _ _ _ _ => true
  | .getpixel _ _ => false
  | .setpixel _ _ _ => false
  | .blendpixel _ _ _ _ => false
  | .drawbres _ _ _ _ _ => false
  | .drawpoint _ _ _ => false
  | .drawaaline _ _ _ _ _ => false

/-- What a run of blends toward `c` does to one pixel that holds `old`: the blends on that pixel with a non-zero weight, in
order, each as R107 says. -/
def blendedColor (c : Color) (x y : Int) : List Splat → Color → Color
  | [], old => old
  | p :: ps, old =>
    blendedColor c x y ps (if p.x = x ∧ p.y = y ∧ p.w ≠ 0 then mixColor old c p.w else old)

end Sys2Proof.Machine
end

