-- ==== Sys2Proof/Certificates/Slice0/Obligations.lean ====
section
/-!
DEFINITION. The statements about PXC, one `def Obligations.<Name> : Prop` each, with the rule of spec/ it formalises in its
docstring. A fault record is written out as `fault := true, errcode := <code of R150>`.
-/

open Sys2Proof Sys2Proof.Machine

/-! ## Format policy -/

/-- R70, through BPP: codes 0 to 3 push 1, 3, 4, 8; any other code raises `UnsupportedFormat` (1) and pushes nothing. -/
def Obligations.BppPushesBytesPerPixel : Prop :=
  ∀ s : State,
    exec (.bpp 0) s = .next { s with out := s.out ++ [1] } ∧
    exec (.bpp 1) s = .next { s with out := s.out ++ [3] } ∧
    exec (.bpp 2) s = .next { s with out := s.out ++ [4] } ∧
    exec (.bpp 3) s = .next { s with out := s.out ++ [8] } ∧
    ∀ fmt : BitVec 8, 4 ≤ fmt.toNat → exec (.bpp fmt) s = .next { s with fault := true, errcode := 1 }

/-- R71, through HASALPHA: codes 0 and 1 push 0, codes 2 and 3 push 1; any other code raises `UnsupportedFormat` (1). -/
def Obligations.HasalphaPushesAlphaPresence : Prop :=
  ∀ s : State,
    exec (.hasalpha 0) s = .next { s with out := s.out ++ [0] } ∧
    exec (.hasalpha 1) s = .next { s with out := s.out ++ [0] } ∧
    exec (.hasalpha 2) s = .next { s with out := s.out ++ [1] } ∧
    exec (.hasalpha 3) s = .next { s with out := s.out ++ [1] } ∧
    ∀ fmt : BitVec 8, 4 ≤ fmt.toNat → exec (.hasalpha fmt) s = .next { s with fault := true, errcode := 1 }

/-- R151: an `FMT` of 4 to 255 raises `UnsupportedFormat` (1) in BPP, HASALPHA, CREATE and WRAP, whatever the other operands
are; for WRAP that includes a `PLEN` above 256 and payloads that no decoded packet carries (notes/assumptions/10.md). Nothing
else raises it: a command that records code 1 has an `FMT` operand of 4 or more, so a pixel or draw command never records it,
and a step that records it has run such a packet, so an illegal one does not. -/
def Obligations.UnsupportedFormatIsRaised : Prop :=
  (∀ (s : State) (fmt : BitVec 8), 4 ≤ fmt.toNat →
    exec (.bpp fmt) s = .next { s with fault := true, errcode := 1 } ∧
    exec (.hasalpha fmt) s = .next { s with fault := true, errcode := 1 } ∧
    (∀ w h, exec (.create fmt w h) s = .next { s with fault := true, errcode := 1 }) ∧
    (∀ plen w h stride len pal data,
      exec (.wrap fmt plen w h stride len pal data) s = .next { s with fault := true, errcode := 1 })) ∧
  (∀ (i : Instr) (s t : State), isPixelCommand i = true → s.fault = false → exec i s = .next t → t.fault = true →
    t.errcode ≠ 1) ∧
  (∀ (i : Instr) (s t : State), s.fault = false → exec i s = .next t → t.fault = true → t.errcode = 1 →
    ∃ fmt, formatOperand i = some fmt ∧ 4 ≤ fmt.toNat) ∧
  (∀ s t : State, s.fault = false → step s = .next t → t.fault = true → t.errcode = 1 →
    ∃ i n fmt, decode s.cfg (s.stream.drop s.pos) = .packet i n ∧ formatOperand i = some fmt ∧ 4 ≤ fmt.toNat)

/-! ## Buffer construction -/

/-- R82: CREATE of a known format with positive dimensions that fits PMEM completes. `STRIDE` is the row rounded up to a
multiple of 4 bytes, `DLEN = STRIDE * HEIGHT`, `PLEN` 0, the bytes below `DLEN` are 0 and every other byte is unchanged, and
nothing else is written. -/
def Obligations.CreateMakesAZeroFilledBuffer : Prop :=
  ∀ (s : State) (f : PixelFormat) (w h : Word), 0 < w.toInt → 0 < h.toInt →
    4 * ((formatBytes f * w.toNat + 3) / 4) * h.toNat ≤ s.cfg.pmemBytes.val →
    ∃ t, exec (.create ((formatCode f).setWidth 8) w h) s = .next t ∧
      t = { s with
        format := f, width := w, height := h, plen := 0, bound := true
        stride := t.stride, dlen := t.dlen, pmem := t.pmem } ∧
      t.stride.toNat = 4 * ((formatBytes f * w.toNat + 3) / 4) ∧
      t.dlen.toNat = t.stride.toNat * h.toNat ∧
      (∀ a, a < t.dlen.toNat → memRead t.pmem a = 0) ∧
      (∀ a, t.dlen.toNat ≤ a → memRead t.pmem a = memRead s.pmem a)

/-- R83 without its last clause: the laws of a completing CREATE. (That no pixel command can raise `AccessFault` on the
buffer is `WellFormedBuffersNeverAccessFault`, with `PixelCommandsKeepTheBuffer`.) -/
def Obligations.CreatedBuffersAreWellFormed : Prop :=
  ∀ (s t : State) (fmt : BitVec 8) (w h : Word), s.fault = false → exec (.create fmt w h) s = .next t →
    t.fault = false →
    WellFormedBuffer t ∧ t.stride.toNat % 4 = 0 ∧
      t.stride.toNat - formatBytes t.format * w.toNat ≤ 3 ∧
      t.dlen.toNat = t.stride.toNat * h.toNat ∧ t.plen = 0 ∧
      (formatCode t.format).setWidth 8 = fmt

/-- R84: WRAP of a known format with positive dimensions, a matching length that fits PMEM, and its whole payload completes.
Palette entry `i` is payload word `i` for `i < plen`; PMEM byte `i` is raw byte `i` of the payload for `i < len` (bits
`8*(i mod 4)` and up of data word `i / 4`, R58); every other entry and byte is unchanged, and nothing else is written. -/
def Obligations.WrapAdoptsThePayload : Prop :=
  ∀ (s : State) (f : PixelFormat) (plen : BitVec 9) (w h stride len : Word) (pal data : List Word),
    plen.toNat ≤ 256 → 0 < w.toInt → 0 < h.toInt → len.toNat = stride.toNat * h.toNat →
    len.toNat ≤ s.cfg.pmemBytes.val → pal.length = plen.toNat → data.length = (len.toNat + 3) / 4 →
    ∃ t, exec (.wrap ((formatCode f).setWidth 8) plen w h stride len pal data) s = .next t ∧
      t = { s with
        format := f, width := w, height := h, stride := stride, dlen := len, plen := plen, bound := true
        pal := t.pal, pmem := t.pmem } ∧
      (∀ i : Fin 256, t.pal[i] = if i.val < plen.toNat then pal.getD i.val 0 else s.pal[i]) ∧
      (∀ i, i < len.toNat → memRead t.pmem i = (data.getD (i / 4) 0).extractLsb' (8 * (i % 4)) 8) ∧
      (∀ a, len.toNat ≤ a → memRead t.pmem a = memRead s.pmem a)

/-- R152: a known format with a non-positive width or height raises `InvalidDimensions` (2) in CREATE and WRAP. -/
def Obligations.InvalidDimensionsIsRaised : Prop :=
  ∀ (s : State) (f : PixelFormat) (w h : Word), (w.toInt ≤ 0 ∨ h.toInt ≤ 0) →
    exec (.create ((formatCode f).setWidth 8) w h) s = .next { s with fault := true, errcode := 2 } ∧
    ∀ plen stride len pal data,
      exec (.wrap ((formatCode f).setWidth 8) plen w h stride len pal data) s =
        .next { s with fault := true, errcode := 2 }

/-- R153: a length word that differs from `stride * height` on mathematical integers raises `BufferSizeMismatch` (3) in WRAP;
one that agrees only modulo 2^32 differs. -/
def Obligations.BufferSizeMismatchIsRaised : Prop :=
  ∀ (s : State) (f : PixelFormat) (plen : BitVec 9) (w h stride len : Word) (pal data : List Word),
    0 < w.toInt → 0 < h.toInt → (len.toNat : Int) ≠ (stride.toNat : Int) * h.toInt →
    exec (.wrap ((formatCode f).setWidth 8) plen w h stride len pal data) s =
      .next { s with fault := true, errcode := 3 }

/-- R163: CREATE and WRAP raise `CapacityExceeded` (10) when the buffer would need more than `PMEM_BYTES` bytes. -/
def Obligations.CapacityExceededIsRaised : Prop :=
  ∀ (s : State) (f : PixelFormat) (w h : Word), 0 < w.toInt → 0 < h.toInt →
    (s.cfg.pmemBytes.val < 4 * ((formatBytes f * w.toNat + 3) / 4) * h.toNat →
      exec (.create ((formatCode f).setWidth 8) w h) s = .next { s with fault := true, errcode := 10 }) ∧
    ∀ (plen : BitVec 9) (stride len : Word) (pal data : List Word), len.toNat = stride.toNat * h.toNat →
      s.cfg.pmemBytes.val < len.toNat →
      exec (.wrap ((formatCode f).setWidth 8) plen w h stride len pal data) s =
        .next { s with fault := true, errcode := 10 }

/-! ## Reading a pixel -/

/-- R87, R100, R104, R107: on a bound buffer of any format, an out-of-bounds GETPIXEL pushes transparent black, and an
out-of-bounds SETPIXEL or BLENDPIXEL changes nothing. -/
def Obligations.OutOfBoundsAccessIsSilent : Prop :=
  ∀ (s : State) (x y : Word), s.bound = true →
    (x.toInt < 0 ∨ y.toInt < 0 ∨ (s.width.toNat : Int) ≤ x.toInt ∨ (s.height.toNat : Int) ≤ y.toInt) →
    exec (.getpixel x y) s = .next { s with out := s.out ++ [0] } ∧
    (∀ color, exec (.setpixel x y color) s = .next s) ∧
    (∀ color ratio, exec (.blendpixel x y color ratio) s = .next s)

/-- R101, R102: GETPIXEL on an in-bounds pixel of a direct format whose bytes lie in the buffer pushes
`A ++ R ++ G ++ B`, where B, G, R stand at the pixel's offset `o = STRIDE*y + BytesPerPixel*x` and after it, and A stands at
`o+3` or is 255 in a format without alpha. Nothing else changes. -/
def Obligations.GetpixelReadsADirectPixel : Prop :=
  ∀ (s : State) (x y : Word) (o : Nat), s.bound = true → s.format ≠ .indexed8 →
    inBounds s x.toInt y.toInt = true →
    o = s.stride.toNat * y.toNat + formatBytes s.format * x.toNat →
    o + directBytes s.format ≤ s.dlen.toNat →
    exec (.getpixel x y) s =
      .next
        { s with
          out := s.out ++
            [(if formatAlpha s.format then memRead s.pmem (o + 3) else 255) ++ memRead s.pmem (o + 2) ++
              memRead s.pmem (o + 1) ++ memRead s.pmem o] }

/-- R101, R103: GETPIXEL on an in-bounds pixel of an Indexed8 buffer whose index byte lies in the buffer and is below `PLEN`
pushes that palette entry unchanged. -/
def Obligations.GetpixelReadsThroughThePalette : Prop :=
  ∀ (s : State) (x y : Word) (o : Nat) (i : Fin 256), s.bound = true → s.format = .indexed8 →
    inBounds s x.toInt y.toInt = true →
    o = s.stride.toNat * y.toNat + x.toNat → o + 1 ≤ s.dlen.toNat →
    i.val = (memRead s.pmem o).toNat → i.val < s.plen.toNat →
    exec (.getpixel x y) s = .next { s with out := s.out ++ [s.pal[i]] }

/-- R160: reading an in-bounds pixel of an Indexed8 buffer whose index byte is not below `PLEN` raises `PaletteLookup` (7);
`PLEN = 0` makes every index fail. Stated for `GetPixel`, and for the two commands that read one pixel. -/
def Obligations.PaletteLookupIsRaised : Prop :=
  (∀ (s : State) (x y : Int), s.format = .indexed8 → inBounds s x y = true →
    pixelOffset s x y + 1 ≤ s.dlen.toNat → s.plen.toNat ≤ (memRead s.pmem (pixelOffset s x y)).toNat →
    getPixel s x y = .error .paletteLookup) ∧
  (∀ (s : State) (x y : Word), s.bound = true → s.format = .indexed8 → inBounds s x.toInt y.toInt = true →
    s.stride.toNat * y.toNat + x.toNat + 1 ≤ s.dlen.toNat →
    s.plen.toNat ≤ (memRead s.pmem (s.stride.toNat * y.toNat + x.toNat)).toNat →
    exec (.getpixel x y) s = .next { s with fault := true, errcode := 7 } ∧
    ∀ color ratio, ratio ≠ 0 →
      exec (.blendpixel x y color ratio) s = .next { s with fault := true, errcode := 7 })

/-- R34, R162, first sentence: an in-bounds access whose bytes would not all lie in `0 .. DLEN-1` raises `AccessFault` (9).
GETPIXEL on every format, SETPIXEL on the direct ones and BLENDPIXEL with a non-zero ratio on every format change nothing
else. A draw command raises it at the first access on its own list that fails the check: DRAWBRES on the direct formats,
DRAWPOINT and DRAWAALINE at a non-zero weight on every format; the accesses before it (`pre`, none of them on Indexed8) have
been made and their bytes stay written (R165), and nothing else changes. Which accesses are on the lists rests on the
spec's items G1 to G3 and its own decisions on the splat (notes/assumptions/14.md). -/
def Obligations.AccessFaultIsRaised : Prop :=
  (∀ (s : State) (x y : Word), s.bound = true → inBounds s x.toInt y.toInt = true →
    s.dlen.toNat <
      s.stride.toNat * y.toNat + formatBytes s.format * x.toNat +
        (if s.format = .indexed8 then 1 else directBytes s.format) →
    exec (.getpixel x y) s = .next { s with fault := true, errcode := 9 } ∧
    (s.format ≠ .indexed8 →
      ∀ color, exec (.setpixel x y color) s = .next { s with fault := true, errcode := 9 }) ∧
    ∀ color ratio, ratio ≠ 0 →
      exec (.blendpixel x y color ratio) s = .next { s with fault := true, errcode := 9 }) ∧
  (∀ (s : State) (x0 y0 x1 y1 color : Word) (pre post : List (Int × Int)) (x y : Int), s.bound = true →
    s.format ≠ .indexed8 → x1 ≠ x0 →
    bresPixels x0.toInt y0.toInt x1.toInt y1.toInt = pre ++ (x, y) :: post →
    (∀ p ∈ pre, inBounds s p.1 p.2 = true → PixelFits s p.1 p.2) → inBounds s x y = true →
    s.dlen.toNat < pixelOffset s x y + directBytes s.format →
    ∃ t, exec (.drawbres x0 y0 x1 y1 color) s = .next t ∧
      t = { s with fault := true, errcode := 9, pmem := t.pmem } ∧
      ∀ a, memRead t.pmem a = storedByte s (colorOf color) a pre (memRead s.pmem a)) ∧
  (∀ (s : State) (pre post : List Splat) (p : Splat), s.bound = true →
    (∀ q ∈ pre, q.w ≠ 0 → inBounds s q.x q.y = true → s.format ≠ .indexed8 ∧ PixelFits s q.x q.y) →
    p.w ≠ 0 → inBounds s p.x p.y = true →
    s.dlen.toNat < pixelOffset s p.x p.y + (if s.format = .indexed8 then 1 else directBytes s.format) →
    (∀ x0 y0 color : Word, pointSplats (q16 x0) (q16 y0) = pre ++ p :: post →
      ∃ t, exec (.drawpoint x0 y0 color) s = .next t ∧
        t = { s with fault := true, errcode := 9, pmem := t.pmem } ∧
        ∀ a, memRead t.pmem a = blendedByte s (colorOf color) a pre (memRead s.pmem a)) ∧
    (∀ x0 y0 x1 y1 color : Word, aalineSplats (q16 x0) (q16 y0) (q16 x1) (q16 y1) = pre ++ p :: post →
      ∃ t, exec (.drawaaline x0 y0 x1 y1 color) s = .next t ∧
        t = { s with fault := true, errcode := 9, pmem := t.pmem } ∧
        ∀ a, memRead t.pmem a = blendedByte s (colorOf color) a pre (memRead s.pmem a)))

/-- R158, with its place in R164: with no buffer the six pixel and draw commands raise `NoBuffer` (5), a degenerate DRAWBRES
too, and change nothing else. -/
def Obligations.NoBufferIsRaised : Prop :=
  ∀ (i : Instr) (s : State), isPixelCommand i = true → s.bound = false →
    exec i s = .next { s with fault := true, errcode := 5 }

/-! ## Writing a pixel -/

/-- R104, R106: SETPIXEL on an in-bounds pixel of a direct format whose bytes lie in the buffer stores B, G, R at its offset
`o` and after it, and A at `o+3` only in a format with alpha; every other byte and everything else is unchanged. -/
def Obligations.SetpixelStoresThePixel : Prop :=
  ∀ (s : State) (x y color : Word) (o : Nat), s.bound = true → s.format ≠ .indexed8 →
    inBounds s x.toInt y.toInt = true →
    o = s.stride.toNat * y.toNat + formatBytes s.format * x.toNat →
    o + directBytes s.format ≤ s.dlen.toNat →
    ∃ t, exec (.setpixel x y color) s = .next t ∧ OnlyPmem s t ∧
      memRead t.pmem o = color.extractLsb' 0 8 ∧
      memRead t.pmem (o + 1) = color.extractLsb' 8 8 ∧
      memRead t.pmem (o + 2) = color.extractLsb' 16 8 ∧
      (formatAlpha s.format = true → memRead t.pmem (o + 3) = color.extractLsb' 24 8) ∧
      ∀ a, (a < o ∨ o + directBytes s.format ≤ a) → memRead t.pmem a = memRead s.pmem a

/-- R159, R105: an in-bounds write to an Indexed8 buffer raises `IndexedWriteTarget` (6) and writes nothing, in `SetPixel`
and so in SETPIXEL, and in BLENDPIXEL with a non-zero ratio after a good palette read. -/
def Obligations.IndexedWriteIsRefused : Prop :=
  (∀ (s : State) (x y : Int) (c : Color), s.format = .indexed8 → inBounds s x y = true →
    setPixel x y c s = .raised .indexedWriteTarget s) ∧
  (∀ (s : State) (x y : Word), s.bound = true → s.format = .indexed8 → inBounds s x.toInt y.toInt = true →
    (∀ color, exec (.setpixel x y color) s = .next { s with fault := true, errcode := 6 }) ∧
    (s.stride.toNat * y.toNat + x.toNat + 1 ≤ s.dlen.toNat →
      (memRead s.pmem (s.stride.toNat * y.toNat + x.toNat)).toNat < s.plen.toNat →
      ∀ color ratio, ratio ≠ 0 →
        exec (.blendpixel x y color ratio) s = .next { s with fault := true, errcode := 6 }))

/-- R110 (a), (b): on a direct format, SETPIXEL then GETPIXEL of the same in-bounds pixel pushes the colour word as given
when the format has alpha, and with alpha 255 when it has none. -/
def Obligations.SetThenGetRoundTrips : Prop :=
  ∀ (s : State) (x y color : Word), s.bound = true → s.format ≠ .indexed8 →
    inBounds s x.toInt y.toInt = true →
    s.stride.toNat * y.toNat + formatBytes s.format * x.toNat + directBytes s.format ≤ s.dlen.toNat →
    ∃ t, exec (.setpixel x y color) s = .next t ∧
      exec (.getpixel x y) t =
        .next { t with
          out := s.out ++ [if formatAlpha s.format then color else (255 : BitVec 8) ++ color.extractLsb' 0 24] }

/-- R110 (e): in a well-formed buffer of a direct format, a write to one in-bounds pixel does not change what any other pixel
reads as. -/
def Obligations.WriteChangesOnePixel : Prop :=
  ∀ (s t : State) (x y : Word) (color : Word), DirectBuffer s → inBounds s x.toInt y.toInt = true →
    exec (.setpixel x y color) s = .next t →
    ∀ x' y' : Int, (x' ≠ x.toInt ∨ y' ≠ y.toInt) → getPixel t x' y' = getPixel s x' y'

/-- R36: in a well-formed buffer an in-bounds pixel lies wholly in its own row and in `0 .. DLEN-1`, and distinct in-bounds
pixels occupy disjoint byte ranges. -/
def Obligations.PixelsOfAWellFormedBufferAreDisjoint : Prop :=
  ∀ (s : State), WellFormedBuffer s → ∀ x y x' y' : Int, inBounds s x y = true → inBounds s x' y' = true →
    s.stride.toNat * y.toNat ≤ pixelOffset s x y ∧
    pixelOffset s x y + formatBytes s.format ≤ s.stride.toNat * (y.toNat + 1) ∧
    pixelOffset s x y + formatBytes s.format ≤ s.dlen.toNat ∧
    ((x ≠ x' ∨ y ≠ y') →
      pixelOffset s x y + formatBytes s.format ≤ pixelOffset s x' y' ∨
      pixelOffset s x' y' + formatBytes s.format ≤ pixelOffset s x y)

/-! ## Blending -/

/-- R107 to R109: BLENDPIXEL with a ratio word `k` of 1 to 65536 on an in-bounds pixel of a direct format whose bytes lie in
the buffer replaces each of B, G, R by `((65536 - k) * old + k * new) div 65536`, stores alpha 255 in a format with alpha,
and changes nothing else. -/
def Obligations.BlendpixelMixesTowardTheColor : Prop :=
  ∀ (s : State) (x y color ratio : Word) (o : Nat), s.bound = true → s.format ≠ .indexed8 →
    inBounds s x.toInt y.toInt = true →
    o = s.stride.toNat * y.toNat + formatBytes s.format * x.toNat →
    o + directBytes s.format ≤ s.dlen.toNat → 0 < ratio.toNat → ratio.toNat ≤ 65536 →
    ∃ t, exec (.blendpixel x y color ratio) s = .next t ∧ OnlyPmem s t ∧
      (∀ j, j < 3 →
        (memRead t.pmem (o + j)).toNat =
          ((65536 - ratio.toNat) * (memRead s.pmem (o + j)).toNat +
            ratio.toNat * (color.extractLsb' (8 * j) 8).toNat) / 65536) ∧
      (formatAlpha s.format = true → memRead t.pmem (o + 3) = 255) ∧
      ∀ a, (a < o ∨ o + directBytes s.format ≤ a) → memRead t.pmem a = memRead s.pmem a

/-- R109 (a) and (b), R110 (d): a ratio of 0 changes nothing, on a bound buffer of any format and for any coordinates (it
returns before the pixel is read); a ratio of 1 sets the pixel's R, G, B to the colour's and its alpha to 255. -/
def Obligations.BlendRatioEndpoints : Prop :=
  (∀ (s : State) (x y color : Word), s.bound = true → exec (.blendpixel x y color 0) s = .next s) ∧
  (∀ (s : State) (x y color : Word), s.bound = true → s.format ≠ .indexed8 →
    inBounds s x.toInt y.toInt = true →
    s.stride.toNat * y.toNat + formatBytes s.format * x.toNat + directBytes s.format ≤ s.dlen.toNat →
    ∃ t, exec (.blendpixel x y color 65536) s = .next t ∧
      getPixel t x.toInt y.toInt = .ok { colorOf color with a := 255 })

/-- R108: `Mix` is the floor of the exact convex combination, stays between its two ends, and obeys the laws the rule lists;
for a ratio `k / 65536` it is the integer quotient. -/
def Obligations.MixLaws : Prop :=
  (∀ (o c : Byte) (r : ℚ), 0 ≤ r → r ≤ 1 →
    ((mix o c r).toNat : Int) = ⌊(1 - r) * (o.toNat : ℚ) + r * (c.toNat : ℚ)⌋ ∧
    min o.toNat c.toNat ≤ (mix o c r).toNat ∧ (mix o c r).toNat ≤ max o.toNat c.toNat ∧
    mix o o r = o ∧ (o.toNat < c.toNat → r < 1 → (mix o c r).toNat < c.toNat)) ∧
  (∀ o c : Byte, mix o c 1 = c) ∧
  (∀ (o c : Byte) (k : Nat), k ≤ 65536 →
    (mix o c ((k : ℚ) / 65536)).toNat = ((65536 - k) * o.toNat + k * c.toNat) / 65536) ∧
  (∀ o c : Byte, c.toNat < o.toNat → (mix o c (1 / 65536)).toNat = o.toNat - 1)

/-! ## The Bresenham line -/

/-- R161: with a buffer, DRAWBRES with `x1 = x0` raises `DegenerateLine` (8) before any pixel is written, whatever `y0`, `y1`
and the buffer's format are. -/
def Obligations.DegenerateLineIsRaised : Prop :=
  ∀ (s : State) (x0 y0 x1 y1 color : Word), s.bound = true → x1 = x0 →
    exec (.drawbres x0 y0 x1 y1 color) s = .next { s with fault := true, errcode := 8 }

/-- R121: on a bound buffer of a direct format, DRAWBRES with `x1 ≠ x0` completes if every in-bounds pixel the loop visits
passes the access check of R34, as every one of a well-formed buffer does (`PixelsOfAWellFormedBufferAreDisjoint`). Each byte
of PMEM is what the stores of the visited in-bounds pixels make of it, in order; so no byte outside them changes, and nothing
but PMEM changes. If the buffer is well-formed, the visited in-bounds pixels read as the colour and every other pixel reads as
before. Which pixels the loop visits rests on the spec's item G1 (notes/assumptions/14.md). -/
def Obligations.DrawbresDrawsTheVisitedPixels : Prop :=
  ∀ (s : State) (x0 y0 x1 y1 color : Word), s.bound = true → s.format ≠ .indexed8 → x1 ≠ x0 →
    (∀ p ∈ bresPixels x0.toInt y0.toInt x1.toInt y1.toInt, inBounds s p.1 p.2 = true → PixelFits s p.1 p.2) →
    ∃ t, exec (.drawbres x0 y0 x1 y1 color) s = .next t ∧ OnlyPmem s t ∧
      (∀ a,
        memRead t.pmem a =
          storedByte s (colorOf color) a (bresPixels x0.toInt y0.toInt x1.toInt y1.toInt) (memRead s.pmem a)) ∧
      (∀ a, (∀ p ∈ bresPixels x0.toInt y0.toInt x1.toInt y1.toInt, inBounds s p.1 p.2 = true → ¬ PixelByte s p.1 p.2 a) →
        memRead t.pmem a = memRead s.pmem a) ∧
      (WellFormedBuffer s → ∀ x y : Int, inBounds s x y = true →
        getPixel t x y =
          if (x, y) ∈ bresPixels x0.toInt y0.toInt x1.toInt y1.toInt then .ok (storedColor s.format (colorOf color))
          else getPixel s x y)

/-- R121 (b): DRAWBRES with `x1 < x0` is a no-op on any buffer. -/
def Obligations.DrawbresBackwardIsANoOp : Prop :=
  ∀ (s : State) (x0 y0 x1 y1 color : Word), s.bound = true → x1.toInt < x0.toInt →
    exec (.drawbres x0 y0 x1 y1 color) s = .next s

/-- R122: the loop visits exactly `max(0, x1 - x0)` pixels, one in each column `x0 .. x1-1` in ascending order; with 32-bit
operands that is at most `2^32 - 1`. -/
def Obligations.BresenhamVisitsEachColumnOnce : Prop :=
  (∀ x0 y0 x1 y1 : Int,
    ((bresPixels x0 y0 x1 y1).length : Int) = max 0 (x1 - x0) ∧
    (bresPixels x0 y0 x1 y1).map Prod.fst =
      (List.range (bresPixels x0 y0 x1 y1).length).map fun k : Nat => x0 + (k : Int)) ∧
  (∀ x0 y0 x1 y1 : Word, (bresPixels x0.toInt y0.toInt x1.toInt y1.toInt).length ≤ 2 ^ 32 - 1)

/-- R123: with `E = 2 * abs(deltaX) * error`, the loop on the exact accumulator and the loop on the integer `E` write the
same pixels in the same order, from any point of the loop on and so from its start. The start rests on the spec's item G1
(notes/assumptions/14.md). -/
def Obligations.BresenhamIntegerFormIsTheSameMachine : Prop :=
  (∀ (adx ady : Int) (n : Nat) (x y e : Int) (error : ℚ), 0 < adx → 0 ≤ ady → (e : ℚ) = 2 * (adx : ℚ) * error →
    bresLoop ((ady : ℚ) / (adx : ℚ)) n x y error = bresIntLoop adx ady n x y e) ∧
  (∀ x0 y0 x1 y1 : Int, x1 ≠ x0 → bresPixels x0 y0 x1 y1 = bresIntPixels x0 y0 x1 y1)

/-- Derived from R121: column `x0 + k` of a line that is not steep is written at the row nearest the exact line of slope
`abs(deltaY) / abs(deltaX)` (halves up), and of a steep one at row `y0 + k` (corner case (d)); rows never descend (c). It rests on
the spec's item G1 (notes/assumptions/14.md). -/
def Obligations.BresenhamRows : Prop :=
  ∀ (x0 y0 x1 y1 : Int) (k : Nat), (k : Int) < x1 - x0 →
    (|y1 - y0| ≤ x1 - x0 →
      (bresPixels x0 y0 x1 y1)[k]? =
        some (x0 + k, y0 + ⌊(k : ℚ) * (((|y1 - y0| : Int) : ℚ) / ((x1 - x0 : Int) : ℚ)) + 1 / 2⌋)) ∧
    (x1 - x0 ≤ |y1 - y0| → (bresPixels x0 y0 x1 y1)[k]? = some (x0 + k, y0 + k))

/-! ## The point splat -/

/-- R131, R132: the tent weights are the triangle of unit half-width at the three pixel centres `-1/2`, `1/2`, `3/2`: a pixel
whose centre is at distance `d < 1` from the point gets `1 - d`, any other gets 0; the three sum to 1, and at most one side is
non-zero. The splat of a point makes its nine blends row by row, top row first, left to right; the weight of the pixel
`(px, py)` is the triangle at `x0` in x times the triangle at `y0` in y. The weights are the spec's own choice, not its
source's: "The formulas are nonetheless this spec's, not the source's" (R131, D31; PRESUMED, notes/assumptions/14.md), as are
the use of `y0` for the y-weights and the order (R132, D32, D33). -/
def Obligations.TentIsTheTriangleFilter : Prop :=
  (∀ f : ℚ, 0 ≤ f → f < 1 →
    (tent f).lower = max 0 (1 - |f - (-1 / 2)|) ∧
    (tent f).middle = max 0 (1 - |f - 1 / 2|) ∧
    (tent f).upper = max 0 (1 - |f - 3 / 2|) ∧
    (tent f).lower + (tent f).middle + (tent f).upper = 1 ∧
    ((tent f).lower = 0 ∨ (tent f).upper = 0)) ∧
  (∀ x0 y0 : ℚ,
    pointSplats x0 y0 =
      ([⌊y0⌋ - 1, ⌊y0⌋, ⌊y0⌋ + 1] : List Int).flatMap fun py =>
        ([⌊x0⌋ - 1, ⌊x0⌋, ⌊x0⌋ + 1] : List Int).map fun px =>
          { x := px, y := py
            w := max 0 (1 - |x0 - ((px : ℚ) + 1 / 2)|) * max 0 (1 - |y0 - ((py : ℚ) + 1 / 2)|) })

/-- R134: for every point the nine weights are each in `[0, 1]` and sum to exactly 1; along each axis one of the two side
weights is 0, so at most two of three are non-zero, and at most four of the nine. The rule derives it from R131 and R132,
whose weights are the spec's own (notes/assumptions/14.md). -/
def Obligations.PointCoverageIsOne : Prop :=
  ∀ x0 y0 : ℚ,
    (pointSplats x0 y0).length = 9 ∧
    (∀ p ∈ pointSplats x0 y0, 0 ≤ p.w ∧ p.w ≤ 1) ∧
    ((pointSplats x0 y0).map Splat.w).sum = 1 ∧
    ((tent (x0 - ⌊x0⌋)).lower = 0 ∨ (tent (x0 - ⌊x0⌋)).upper = 0) ∧
    ((tent (y0 - ⌊y0⌋)).lower = 0 ∨ (tent (y0 - ⌊y0⌋)).upper = 0) ∧
    ((pointSplats x0 y0).filter fun p => p.w ≠ 0).length ≤ 4

/-- R132, R133: on a bound buffer of a direct format, DRAWPOINT completes if every in-bounds pixel of the splat with a
non-zero weight passes the access check of R34, as every one of a well-formed buffer does. Each byte of PMEM goes through the
blends of R107 that the splat makes on it, in order; so no byte outside the in-bounds pixels with a non-zero weight changes,
and nothing but PMEM changes. If the buffer is well-formed, each in-bounds pixel goes through the blends made on it, in order.
The tent weights, the y-weights and the order of the nine blends are the spec's own (D31 to D33; notes/assumptions/14.md). -/
def Obligations.DrawpointBlendsTheSplat : Prop :=
  ∀ (s : State) (x0 y0 color : Word), s.bound = true → s.format ≠ .indexed8 →
    (∀ p ∈ pointSplats (q16 x0) (q16 y0), p.w ≠ 0 → inBounds s p.x p.y = true →
      PixelFits s p.x p.y) →
    ∃ t, exec (.drawpoint x0 y0 color) s = .next t ∧ OnlyPmem s t ∧
      (∀ a,
        memRead t.pmem a =
          blendedByte s (colorOf color) a (pointSplats (q16 x0) (q16 y0)) (memRead s.pmem a)) ∧
      (∀ a,
        (∀ p ∈ pointSplats (q16 x0) (q16 y0), p.w ≠ 0 → inBounds s p.x p.y = true →
          ¬ PixelByte s p.x p.y a) →
        memRead t.pmem a = memRead s.pmem a) ∧
      (WellFormedBuffer s → ∀ (x y : Int) (old : Color), inBounds s x y = true → getPixel s x y = .ok old →
        getPixel t x y =
          .ok (blendedColor (colorOf color) x y (pointSplats (q16 x0) (q16 y0)) old))

/-! ## The antialiased line -/

/-- R135 to R138: on a bound buffer of a direct format, DRAWAALINE completes if every in-bounds pixel of the line with a
non-zero weight passes the access check of R34, as every one of a well-formed buffer does. Each byte of PMEM goes through the
blends of R107 that the line makes on it, in order; so no byte outside the in-bounds pixels with a non-zero weight changes,
and nothing but PMEM changes. If the buffer is well-formed, each in-bounds pixel goes through the blends made on it, in order.
Which blends the line makes rests on the spec's items G2 and G3, and on the splat's own (notes/assumptions/14.md). -/
def Obligations.DrawaalineBlendsTheLine : Prop :=
  ∀ (s : State) (x0 y0 x1 y1 color : Word), s.bound = true → s.format ≠ .indexed8 →
    (∀ p ∈ aalineSplats (q16 x0) (q16 y0) (q16 x1) (q16 y1), p.w ≠ 0 → inBounds s p.x p.y = true →
      PixelFits s p.x p.y) →
    ∃ t, exec (.drawaaline x0 y0 x1 y1 color) s = .next t ∧ OnlyPmem s t ∧
      (∀ a,
        memRead t.pmem a =
          blendedByte s (colorOf color) a (aalineSplats (q16 x0) (q16 y0) (q16 x1) (q16 y1)) (memRead s.pmem a)) ∧
      (∀ a,
        (∀ p ∈ aalineSplats (q16 x0) (q16 y0) (q16 x1) (q16 y1), p.w ≠ 0 → inBounds s p.x p.y = true →
          ¬ PixelByte s p.x p.y a) →
        memRead t.pmem a = memRead s.pmem a) ∧
      (WellFormedBuffer s → ∀ (x y : Int) (old : Color), inBounds s x y = true → getPixel s x y = .ok old →
        getPixel t x y =
          .ok (blendedColor (colorOf color) x y (aalineSplats (q16 x0) (q16 y0) (q16 x1) (q16 y1)) old))

/-- R140: every weight passed to `Blend` by a point or a line is in `[0, 1]`. The gap factors of the line rest on the spec's
item G3 (notes/assumptions/14.md). -/
def Obligations.BlendWeightsAreInTheUnitInterval : Prop :=
  ∀ x0 y0 x1 y1 : ℚ,
    (∀ p ∈ pointSplats x0 y0, 0 ≤ p.w ∧ p.w ≤ 1) ∧ (∀ p ∈ aalineSplats x0 y0 x1 y1, 0 ≤ p.w ∧ p.w ≤ 1)

/-- R141: a line and the line with its endpoints exchanged make the same `Blend` calls with the same weights, hence the same
step in every state. DRAWBRES has no such law. -/
def Obligations.WuLineIsEndpointSymmetric : Prop :=
  (∀ x0 y0 x1 y1 : ℚ, aalineSplats x0 y0 x1 y1 = aalineSplats x1 y1 x0 y0) ∧
  (∀ (s : State) (x0 y0 x1 y1 color : Word),
    exec (.drawaaline x0 y0 x1 y1 color) s = exec (.drawaaline x1 y1 x0 y0 color) s) ∧
  (∃ x0 y0 x1 y1 : Int, bresPixels x0 y0 x1 y1 ≠ bresPixels x1 y1 x0 y0)

/-- R139: a line whose endpoints differ makes exactly `4 + 2 * max(0, xpxl2 - xpxl1 - 1)` calls of `Blend`, where `xpxl1` and
`xpxl2` round the smaller and the larger coordinate on the primary axis; a degenerate one makes 9. With Q16.16 operands (a
word read as signed, over 65536: R53) the columns lie in -32768 to 32768, so there are at most 131,074 calls. It rests on the spec's items G2 and G3
(notes/assumptions/14.md). -/
def Obligations.WuLineWork : Prop :=
  (∀ x0 y0 x1 y1 : ℚ, ¬ (x0 = x1 ∧ y0 = y1) → ∀ p0 p1 : ℚ,
    (if |x1 - x0| < |y1 - y0| then p0 = min y0 y1 ∧ p1 = max y0 y1 else p0 = min x0 x1 ∧ p1 = max x0 x1) →
    ((aalineSplats x0 y0 x1 y1).length : Int) = 4 + 2 * max 0 (roundHalfUp p1 - roundHalfUp p0 - 1)) ∧
  (∀ x y : ℚ, (aalineSplats x y x y).length = 9) ∧
  (∀ w : Word, q16 w = (w.toInt : ℚ) / 65536 ∧ -32768 ≤ roundHalfUp (q16 w) ∧ roundHalfUp (q16 w) ≤ 32768) ∧
  (∀ x0 y0 x1 y1 : Word, (aalineSplats (q16 x0) (q16 y0) (q16 x1) (q16 y1)).length ≤ 131074)

/-- R135: the degenerate single-point call is the splat of its point, in every state. -/
def Obligations.DegenerateWuLineIsAPoint : Prop :=
  ∀ (s : State) (x y color : Word), exec (.drawaaline x y x y color) s = exec (.drawpoint x y color) s

/-- R135 (b): after the axis swap the primary extent of a line whose endpoints differ is not 0, and the slope along it is in
`[-1, 1]`: the division of step 3 is always defined. -/
def Obligations.WuGradientIsDefined : Prop :=
  ∀ x0 y0 x1 y1 : ℚ, ¬ (x0 = x1 ∧ y0 = y1) →
    (isSteep x0 y0 x1 y1 = true → y1 - y0 ≠ 0 ∧ |(x1 - x0) / (y1 - y0)| ≤ 1) ∧
    (isSteep x0 y0 x1 y1 = false → x1 - x0 ≠ 0 ∧ |(y1 - y0) / (x1 - x0)| ≤ 1)

/-- R135 to R138: the blends of a line in closed form. The accumulated `intery` is the line's exact secondary coordinate, so
after the two endpoint columns the loop blends, column by column, the two pixels that straddle the line at the integer
abscissa, with weights that sum to 1. A line that is not steep is drawn so along x, a steep one along y, with x and y of each
pixel exchanged. Both are stated for ascending endpoints on the primary axis; descending ones make the same blends
(`WuLineIsEndpointSymmetric`). It rests on the spec's items G2 and G3 (notes/assumptions/14.md). -/
def Obligations.WuMainLoopFollowsTheLine : Prop :=
  ∀ x0 y0 x1 y1 : ℚ,
    (x0 < x1 → wuSpine x0 y0 x1 y1 = lineBlends x0 y0 x1 y1) ∧
    (x0 < x1 → |y1 - y0| ≤ x1 - x0 → aalineSplats x0 y0 x1 y1 = lineBlends x0 y0 x1 y1) ∧
    (y0 < y1 → |x1 - x0| < y1 - y0 →
      aalineSplats x0 y0 x1 y1 = (lineBlends y0 x0 y1 x1).map fun p => { x := p.y, y := p.x, w := p.w })

/-! ## Drawing where nothing can be drawn -/

/-- R154, R107: a draw command that reaches no in-bounds pixel completes and changes nothing, on a bound buffer of any format.
For DRAWPOINT and DRAWAALINE an in-bounds pixel of weight 0 is not reached. (The single pixel commands are
`OutOfBoundsAccessIsSilent` and `BlendRatioEndpoints`.) -/
def Obligations.DrawingOutsideChangesNothing : Prop :=
  ∀ (s : State) (x0 y0 x1 y1 color : Word), s.bound = true →
    (x1 ≠ x0 → (∀ p ∈ bresPixels x0.toInt y0.toInt x1.toInt y1.toInt, inBounds s p.1 p.2 = false) →
      exec (.drawbres x0 y0 x1 y1 color) s = .next s) ∧
    ((∀ p ∈ pointSplats (q16 x0) (q16 y0), p.w ≠ 0 → inBounds s p.x p.y = false) →
      exec (.drawpoint x0 y0 color) s = .next s) ∧
    ((∀ p ∈ aalineSplats (q16 x0) (q16 y0) (q16 x1) (q16 y1), p.w ≠ 0 → inBounds s p.x p.y = false) →
      exec (.drawaaline x0 y0 x1 y1 color) s = .next s)

/-- R105, R133, R135, R164: on an Indexed8 buffer a draw command that reaches an in-bounds pixel raises a fault and writes
nothing. DRAWBRES raises `IndexedWriteTarget` (6). For DRAWPOINT and DRAWAALINE the first in-bounds blend `p` with a non-zero
weight fixes the fault: of its read, `AccessFault` (9) if the index byte lies outside the buffer, else `PaletteLookup` (7) if
the index is not below `PLEN`; after a good read, `IndexedWriteTarget` (6). Which blend is the first rests on the spec's items
G2 and G3 and its own splat (notes/assumptions/14.md). -/
def Obligations.DrawingOnIndexed8IsRefused : Prop :=
  ∀ (s : State) (x0 y0 x1 y1 color : Word), s.bound = true → s.format = .indexed8 →
    (x1 ≠ x0 → (∃ p ∈ bresPixels x0.toInt y0.toInt x1.toInt y1.toInt, inBounds s p.1 p.2 = true) →
      exec (.drawbres x0 y0 x1 y1 color) s = .next { s with fault := true, errcode := 6 }) ∧
    ∀ (p : Splat) (k : BitVec 4),
      k =
        (if s.dlen.toNat < pixelOffset s p.x p.y + 1 then 9
        else if s.plen.toNat ≤ (memRead s.pmem (pixelOffset s p.x p.y)).toNat then 7
        else 6) →
      ((pointSplats (q16 x0) (q16 y0)).find? (accesses s) = some p →
        exec (.drawpoint x0 y0 color) s = .next { s with fault := true, errcode := k }) ∧
      ((aalineSplats (q16 x0) (q16 y0) (q16 x1) (q16 y1)).find? (accesses s) = some p →
        exec (.drawaaline x0 y0 x1 y1 color) s = .next { s with fault := true, errcode := k })

/-! ## Whole-machine rules -/

/-- R155: a step that raises a fault sets `FAULT`, records a code of 1 to 10, leaves `pos` at the header of the faulting
command, pushes nothing, and leaves the buffer's registers and the palette as they were. -/
def Obligations.RaiseRecordsTheFault : Prop :=
  ∀ s t : State, s.fault = false → step s = .next t → t.fault = true →
    1 ≤ t.errcode.toNat ∧ t.errcode.toNat ≤ 10 ∧
      t = { s with fault := true, errcode := t.errcode, pmem := t.pmem }

/-- R165: a faulting command has changed nothing but the fault record, unless it is a draw command that raised `AccessFault`,
which may have written pixels before; that one changes nothing but PMEM and the record, and no byte outside the in-bounds
pixels on its own list. (Which of them it has written is `AccessFaultIsRaised`.) -/
def Obligations.FaultsArePrecise : Prop :=
  ∀ (i : Instr) (s t : State), s.fault = false → exec i s = .next t → t.fault = true →
    ((isDraw i = false ∨ t.errcode ≠ 9) → t = { s with fault := true, errcode := t.errcode }) ∧
    (isDraw i = true → t.errcode = 9 →
      t = { s with fault := true, errcode := 9, pmem := t.pmem } ∧
      ∀ a, (∀ p ∈ drawnPixels i, inBounds s p.1 p.2 = true → ¬ PixelByte s p.1 p.2 a) →
        memRead t.pmem a = memRead s.pmem a)

/-- R156: a faulted engine has no next state, and none after the host pushes words or pops `OUT`, which leave the fault and
`pos` as they are; reset clears the fault, discards the words and the buffer. -/
def Obligations.FaultedEngineTakesNoStep : Prop :=
  ∀ s : State, s.fault = true →
    (∀ t, step s ≠ .next t) ∧
    (∀ ws, (hostPushAll ws s).fault = true ∧ (hostPushAll ws s).pos = s.pos ∧ ∀ t, step (hostPushAll ws s) ≠ .next t) ∧
    (∀ v u, hostPop s = some (v, u) → u.fault = true ∧ u.pos = s.pos ∧ ∀ t, step u ≠ .next t) ∧
    (hostReset s).fault = false ∧ (hostReset s).stream = [] ∧ (hostReset s).bound = false

/-- R6, R7: every command executed in any state answers a next state; the engine has no step only when it is faulted or waits
for words, and it refuses nothing. That "no step" is a `fault` of the model, with a name of its own for each of the two, is
the model's form (notes/assumptions/6.md). -/
def Obligations.EveryCommandAnswersAState : Prop :=
  (∀ (i : Instr) (s : State), ∃ t, exec i s = .next t) ∧
  (∀ s : State,
    (∃ t, step s = .next t) ∨ (s.fault = true ∧ step s = .fault .halted) ∨
      (s.fault = false ∧ decode s.cfg (s.stream.drop s.pos) = .needMore ∧ step s = .fault .awaitingWords))

/-- R13, R23 (last sentence): no command but CREATE and WRAP writes `BOUND`, `FORMAT`, `WIDTH`, `HEIGHT`, `STRIDE`, `DLEN`,
`PLEN` or `PAL`. -/
def Obligations.PixelCommandsKeepTheBuffer : Prop :=
  ∀ (i : Instr) (s t : State), isConstruction i = false → exec i s = .next t →
    t.bound = s.bound ∧ t.format = s.format ∧ t.width = s.width ∧ t.height = s.height ∧ t.stride = s.stride ∧
      t.dlen = s.dlen ∧ t.plen = s.plen ∧ t.pal = s.pal

/-- R19, R20, R11: a command appends at most one word to `OUT`, and only BPP, HASALPHA and GETPIXEL append one; no command
removes a word of `OUT`, writes the stream, moves `pos` itself or changes the parameters. The host pops the oldest word, so
words leave in the order they were pushed, and a pop changes nothing else. -/
def Obligations.CommandsOnlyAppendToOut : Prop :=
  (∀ (i : Instr) (s t : State), exec i s = .next t →
    (t.out = s.out ∨ (pushesOut i = true ∧ ∃ v, t.out = s.out ++ [v])) ∧
      t.stream = s.stream ∧ t.pos = s.pos ∧ t.cfg = s.cfg) ∧
  (∀ (s : State) (v : Word) (vs : List Word), s.out = v :: vs → hostPop s = some (v, { s with out := vs }))

/-- R36, R83, R162: on a well-formed buffer no command raises `AccessFault` (9). -/
def Obligations.WellFormedBuffersNeverAccessFault : Prop :=
  ∀ (i : Instr) (s t : State), WellFormedBuffer s → s.fault = false → exec i s = .next t → t.fault = true →
    t.errcode ≠ 9

/-- R42: on a well-formed buffer of a direct format, padding bytes and bytes 4 to 7 of Argb64 pixels are never written by a
pixel or draw command and never observed: two states that agree on the pixels' accessed bytes push the same words, record
the same fault and agree on those bytes again. -/
def Obligations.PaddingIsNeverObserved : Prop :=
  ∀ (i : Instr) (s t s' t' : State), isPixelCommand i = true → DirectBuffer s → SamePixels s t →
    exec i s = .next s' → exec i t = .next t' →
    s'.out = t'.out ∧ s'.fault = t'.fault ∧ s'.errcode = t'.errcode ∧ SamePixels s' t' ∧
      ∀ a, (∀ x y, inBounds s x y = true → ¬ PixelByte s x y a) → memRead s'.pmem a = memRead s.pmem a

/-! ## Decoding and stepping -/

/-- R6: when the words at `pos` decode to a packet, `step` is `exec` of it, and then `pos` moves past the packet's words
unless a fault was raised. -/
def Obligations.StepRunsTheDecodedCommand : Prop :=
  ∀ (s : State) (i : Instr) (n : Nat), s.fault = false → decode s.cfg (s.stream.drop s.pos) = .packet i n →
    WellFormed s.cfg i = true ∧
    ∃ t, exec i s = .next t ∧ step s = .next (if t.fault then t else { t with pos := t.pos + n })

/-- R56: a header is illegal exactly when its opcode is not one of the ten, or a field that must be 0 for its opcode is not 0:
bits 31:25 always, `PLEN` in every command but WRAP, `FMT` in every command but BPP, HASALPHA, CREATE and WRAP. It raises
`IllegalCommand` (4) as soon as it is at `stream[pos]`, whatever follows. -/
def Obligations.IllegalHeadersRaise : Prop :=
  (∀ w0 : Word,
    selectRow w0 = none ↔
      (w0.extractLsb' 0 8 ∉ ([0x01, 0x02, 0x10, 0x11, 0x20, 0x21, 0x22, 0x30, 0x31, 0x32] : List (BitVec 8)) ∨
        w0.extractLsb' 25 7 ≠ 0 ∨
        (w0.extractLsb' 0 8 ≠ 0x11 ∧ w0.extractLsb' 16 9 ≠ 0) ∨
        (w0.extractLsb' 0 8 ∉ ([0x01, 0x02, 0x10, 0x11] : List (BitVec 8)) ∧ w0.extractLsb' 8 8 ≠ 0))) ∧
  (∀ (s : State) (w0 : Word) (rest : List Word), s.fault = false → s.stream.drop s.pos = w0 :: rest →
    selectRow w0 = none → step s = .next { s with fault := true, errcode := 4 })

/-- R57: a BLENDPIXEL ratio word above 65536, once its five words are there, and a WRAP `PLEN` above 256, once its five fixed
words are there, raise `IllegalCommand` (4). No other operand value is illegal: a packet with a legal header is illegal in
these two ways only. -/
def Obligations.IllegalOperandsRaise : Prop :=
  (∀ (s : State) (x y color ratio : Word) (rest : List Word), s.fault = false → 65536 < ratio.toNat →
    s.stream.drop s.pos = 0x00000022#32 :: x :: y :: color :: ratio :: rest →
    step s = .next { s with fault := true, errcode := 4 }) ∧
  (∀ (s : State) (fmt : BitVec 8) (plen : BitVec 9) (w h stride len : Word) (rest : List Word), s.fault = false →
    256 < plen.toNat →
    s.stream.drop s.pos = ((0 : BitVec 7) ++ plen ++ fmt ++ (0x11 : BitVec 8)) :: w :: h :: stride :: len :: rest →
    step s = .next { s with fault := true, errcode := 4 }) ∧
  (∀ (cfg : Config) (w0 : Word) (ops : List Word) (why : IllegalWhy), decode cfg (w0 :: ops) = .illegal why →
    selectRow w0 ≠ none →
    (w0 = 0x00000022#32 ∧ 4 ≤ ops.length ∧ 65536 < (ops.getD 3 0).toNat) ∨
      (w0.extractLsb' 0 8 = 0x11 ∧ 4 ≤ ops.length ∧ 256 < (w0.extractLsb' 16 9).toNat))

/-- R6, R50, R60: no packet decodes before all its words are there: every shorter prefix of a packet asks for more. -/
def Obligations.PartialPacketsWait : Prop :=
  ∀ (cfg : Config) (i : Instr) (k : Nat), WellFormed cfg i = true → k < (encode i).length →
    decode cfg ((encode i).take k) = .needMore

/-- R50 to R60: decoding the words of a well-formed packet, with anything after them, gives the packet back, every operand at
every value. -/
def Obligations.DecodeOfEncode : Prop :=
  ∀ (cfg : Config) (i : Instr) (rest : List Word), WellFormed cfg i = true →
    decode cfg (encode i ++ rest) = .packet i (packetLength cfg i)

/-- The other direction: a packet the decoder delivers is well-formed, its encoding is exactly the words at the front, and
the reported length is the packet's. -/
def Obligations.EncodeOfDecode : Prop :=
  ∀ (cfg : Config) (ws : List Word) (i : Instr) (n : Nat), decode cfg ws = .packet i n →
    WellFormed cfg i = true ∧ encode i <+: ws ∧ n = packetLength cfg i

/-- The worked encodings of spec/30_encoding.md section 7, all of them: the five packets and the four illegal headers; and
before them the four example words of R72 and R73 (a format code above 3 decodes; the command raises the fault). -/
def Obligations.SpecWordsDecode : Prop :=
  decode Config.pxc1 [0x00000301#32] = .packet (.bpp 3) 1 ∧
  decode Config.pxc1 [0x00000401#32] = .packet (.bpp 4) 1 ∧
  decode Config.pxc1 [0x00000102#32] = .packet (.hasalpha 1) 1 ∧
  decode Config.pxc1 [0x00000202#32] = .packet (.hasalpha 2) 1 ∧
  decode Config.pxc1 [0x00000110#32, 0x0000000A#32, 0x00000002#32] = .packet (.create 1 10 2) 3 ∧
  decode Config.pxc1 [0x00000022#32, 0x00000001#32, 0x00000000#32, 0xFFFFFFFF#32, 0x00008000#32] =
    .packet (.blendpixel 1 0 0xFFFFFFFF 0x8000) 5 ∧
  decode Config.pxc1 [0x00000031#32, 0x00014000#32, 0x00018000#32, 0xFF204060#32] =
    .packet (.drawpoint 0x14000 0x18000 0xFF204060) 4 ∧
  decode Config.pxc1 [0x00000020#32, 0xFFFFFFFF#32, 0x00000000#32] = .packet (.getpixel (-1) 0) 3 ∧
  decode Config.pxc1
      [0x00030011#32, 0x00000003#32, 0x00000002#32, 0x00000004#32, 0x00000008#32, 0xFF000000#32, 0xFFFF0000#32,
        0x8000FF00#32, 0xEE020100#32, 0xDD000102#32] =
    .packet (.wrap 0 3 3 2 4 8 [0xFF000000, 0xFFFF0000, 0x8000FF00] [0xEE020100, 0xDD000102]) 10 ∧
  decode Config.pxc1 [0x00000000#32] = .illegal .noOpcodeRow ∧
  decode Config.pxc1 [0x00000120#32] = .illegal .noOpcodeRow ∧
  decode Config.pxc1 [0x02000010#32] = .illegal .noOpcodeRow ∧
  decode Config.pxc1 [0x00010021#32] = .illegal .noOpcodeRow

/-! ## Invariants and reset -/

/-- R11, R12, R18, R23: every step from a state that meets the invariant leads to one that meets it. The canonical form of
memory is the model's own way of holding PMEM (notes/assumptions/3.md). -/
def Obligations.StepKeepsTheInvariant : Prop := ∀ s t : State, Inv s → step s = .next t → Inv t

/-- R25, R180: the state after reset, and what reset makes of any state, have the values the spec lists, with the machine's
parameters kept. `PAL` and PMEM, which the spec leaves unspecified there, are not constrained. -/
def Obligations.ResetLeavesTheSpecifiedState : Prop :=
  AfterReset State.reset ∧ ∀ s : State, AfterReset (hostReset s) ∧ (hostReset s).cfg = s.cfg

/-- The invariant of `StepKeepsTheInvariant` holds after reset. Its clauses on memory rest on the model's choice of what reset
leaves in PMEM (notes/assumptions/3.md and 8.md). -/
def Obligations.InvariantHoldsAtReset : Prop := Inv State.reset ∧ ∀ s : State, Inv (hostReset s)

/-- R22, R12, R11: what the host's CSR port reads at each offset; every other offset reads 0. -/
def Obligations.CsrPortReadsTheMap : Prop :=
  ∀ s : State,
    ((csrRead s 0x00).extractLsb' 0 1 = BitVec.ofBool s.bound ∧ (csrRead s 0x00).extractLsb' 1 1 = BitVec.ofBool s.fault ∧
      (csrRead s 0x00).extractLsb' 2 2 = 0 ∧ (csrRead s 0x00).extractLsb' 4 4 = s.errcode ∧
      (csrRead s 0x00).extractLsb' 8 24 = 0) ∧
    (csrRead s 0x04).toNat = s.pos % 2 ^ 32 ∧
    (csrRead s 0x08).toNat = (formatCode s.format).toNat ∧
    csrRead s 0x0C = s.width ∧ csrRead s 0x10 = s.height ∧ csrRead s 0x14 = s.stride ∧
    (csrRead s 0x18).toNat = s.plen.toNat ∧ csrRead s 0x1C = s.dlen ∧
    ∀ n : Nat, n ∉ [0x00, 0x04, 0x08, 0x0C, 0x10, 0x14, 0x18, 0x1C] → csrRead s n = 0
end

