-- ==== Sys2Proof/Laws/Operands.lean ====
section
/-!
SUPPORT. The laws of the operand forms: colours and words, the payload bytes of WRAP, format codes, the stride rule, and when
the checks of CREATE and WRAP pass or raise each fault.
-/

namespace Sys2Proof.Machine

/-- A word is the word of its colour. -/
@[simp] theorem wordOf_colorOf (w : Word) : wordOf (colorOf w) = w := by
  unfold wordOf colorOf
  rw [BitVec.extractLsb'_append_extractLsb'_eq_extractLsb' (by rfl),
    BitVec.extractLsb'_append_extractLsb'_eq_extractLsb' (by rfl),
    BitVec.extractLsb'_append_extractLsb'_eq_extractLsb' (by rfl)]
  exact BitVec.extractLsb'_eq_self

theorem length_wordBytes_flatMap (ws : List Word) : (ws.flatMap wordBytes).length = 4 * ws.length := by
  induction ws with
  | nil => rfl
  | cons w ws ih => simp [List.flatMap_cons, ih, wordBytes]; omega

/-- Byte `i` of the packed words is byte `i mod 4` of word `i / 4` (R58). -/
theorem getElem_wordBytes_flatMap (ws : List Word) (i : Nat) (h : i < (ws.flatMap wordBytes).length) :
    (ws.flatMap wordBytes)[i] = (ws.getD (i / 4) 0).extractLsb' (8 * (i % 4)) 8 := by
  induction ws generalizing i with
  | nil => simp at h
  | cons w ws ih =>
    by_cases hi : i < 4
    · have h0 : i / 4 = 0 := by omega
      have : i = 0 ∨ i = 1 ∨ i = 2 ∨ i = 3 := by omega
      rcases this with rfl | rfl | rfl | rfl <;> simp [List.flatMap_cons, wordBytes]
    · obtain ⟨j, rfl⟩ : ∃ j, i = j + 4 := ⟨i - 4, by omega⟩
      have h4 : (j + 4) / 4 = j / 4 + 1 := by omega
      have h5 : (j + 4) % 4 = j % 4 := by omega
      have hj : j < (ws.flatMap wordBytes).length := by
        rw [length_wordBytes_flatMap] at h ⊢; simp at h; omega
      have := ih j hj
      simp only [List.flatMap_cons, h4, h5, List.getD_cons_succ]
      rw [← this, List.getElem_append_right (by simp [wordBytes])]
      simp [wordBytes]

/-- A payload with its exact number of data words has `len` bytes. -/
theorem length_payloadBytes {data : List Word} {len : Nat} (h : data.length = dataWords len) :
    (payloadBytes data len).length = len := by
  simp only [payloadBytes, List.length_take, length_wordBytes_flatMap, h, dataWords]
  omega

/-- A payload has at most `len` bytes. -/
theorem length_payloadBytes_le (data : List Word) (len : Nat) : (payloadBytes data len).length ≤ len := by
  simp [payloadBytes]

/-- Raw byte `i` of a payload (R58). -/
theorem getElem_payloadBytes {data : List Word} {len i : Nat} (h : i < (payloadBytes data len).length) :
    (payloadBytes data len)[i] = (data.getD (i / 4) 0).extractLsb' (8 * (i % 4)) 8 := by
  simp only [payloadBytes, List.getElem_take]
  exact getElem_wordBytes_flatMap _ _ _

/-- The code of a format names it (R54). -/
@[simp] theorem lookupFormat_formatCode (f : PixelFormat) : lookupFormat ((formatCode f).setWidth 8) = .ok f := by
  cases f <;> rfl

/-- Codes 4 to 255 name no format (R54). -/
theorem lookupFormat_of_ge {fmt : BitVec 8} (h : 4 ≤ fmt.toNat) : lookupFormat fmt = .error .unsupportedFormat := by
  unfold lookupFormat
  split <;> first | omega | rfl

/-- A code that names a format is that format's code, and the only failure of the lookup is `UnsupportedFormat`. -/
theorem lookupFormat_cases (fmt : BitVec 8) :
    (∃ f, lookupFormat fmt = .ok f ∧ fmt = (formatCode f).setWidth 8) ∨
      (lookupFormat fmt = .error .unsupportedFormat ∧ 4 ≤ fmt.toNat) := by
  by_cases h : fmt.toNat < 4
  · left
    have : fmt = 0 ∨ fmt = 1 ∨ fmt = 2 ∨ fmt = 3 := by
      have : fmt.toNat = 0 ∨ fmt.toNat = 1 ∨ fmt.toNat = 2 ∨ fmt.toNat = 3 := by omega
      exact this.imp BitVec.eq_of_toNat_eq
        (Or.imp BitVec.eq_of_toNat_eq (Or.imp BitVec.eq_of_toNat_eq BitVec.eq_of_toNat_eq))
    rcases this with rfl | rfl | rfl | rfl
    · exact ⟨.indexed8, rfl, rfl⟩
    · exact ⟨.rgb24, rfl, rfl⟩
    · exact ⟨.argb32, rfl, rfl⟩
    · exact ⟨.argb64, rfl, rfl⟩
  · exact .inr ⟨lookupFormat_of_ge (by omega), by omega⟩

theorem directBytes_le_formatBytes {f : PixelFormat} (h : f ≠ .indexed8) : directBytes f ≤ formatBytes f := by
  cases f <;> first | exact absurd rfl h | decide

/-- A direct access touches three or four bytes. -/
theorem directBytes_pos (f : PixelFormat) : 3 ≤ directBytes f := by cases f <;> decide

/-- The stride rule written out (R81). -/
theorem createStride_eq (f : PixelFormat) (w : Nat) : createStride f w = 4 * ((formatBytes f * w + 3) / 4) := rfl

/-- `ceil`: the stride covers the row and pads it by at most 3 bytes (R81, R83). -/
theorem createStride_bounds (f : PixelFormat) (w : Nat) :
    formatBytes f * w ≤ createStride f w ∧ createStride f w ≤ formatBytes f * w + 3 ∧ createStride f w % 4 = 0 := by
  rw [createStride_eq]; omega

/-- A signed word that is positive is its own unsigned value, below 2^31. -/
theorem toNat_of_toInt_pos {w : Word} (h : 0 < w.toInt) :
    (w.toNat : Int) = w.toInt ∧ 1 ≤ w.toNat ∧ w.toNat < 2 ^ 31 := by
  have := w.isLt
  rw [BitVec.toInt_eq_toNat_cond] at h ⊢
  split at h <;> simp_all <;> omega

theorem badDimensions_eq_true {w h : Word} : badDimensions w h = true ↔ w.toInt ≤ 0 ∨ h.toInt ≤ 0 := by
  rw [badDimensions, decide_eq_true_iff]; rfl

theorem badDimensions_eq_false {w h : Word} : badDimensions w h = false ↔ 0 < w.toInt ∧ 0 < h.toInt := by
  rw [← Bool.not_eq_true, badDimensions_eq_true]; omega

/-- What the checks of CREATE passing means (R82). -/
theorem createChecks_ok {cfg : Config} {fmt : BitVec 8} {w h : Word} {f : PixelFormat}
    (hc : createChecks cfg fmt w h = .ok f) :
    fmt = (formatCode f).setWidth 8 ∧ 0 < w.toInt ∧ 0 < h.toInt ∧ createBytes f w h ≤ cfg.pmemBytes.val := by
  unfold createChecks at hc
  rcases lookupFormat_cases fmt with ⟨g, hg, hfmt⟩ | ⟨hg, -⟩ <;> rw [hg] at hc <;> simp only at hc
  · split at hc
    · cases hc
    · next hd =>
      split at hc
      · cases hc
      · next hcap =>
        cases hc
        have := badDimensions_eq_false.mp (by simpa using hd)
        exact ⟨hfmt, this.1, this.2, by omega⟩
  · cases hc

/-- Which faults the checks of CREATE can raise (R82). -/
theorem createChecks_error {cfg : Config} {fmt : BitVec 8} {w h : Word} {e : ErrCode}
    (hc : createChecks cfg fmt w h = .error e) :
    (e = .unsupportedFormat ∧ 4 ≤ fmt.toNat) ∨ e = .invalidDimensions ∨ e = .capacityExceeded := by
  unfold createChecks at hc
  rcases lookupFormat_cases fmt with ⟨g, hg, -⟩ | ⟨hg, hfmt⟩ <;> rw [hg] at hc <;> simp only at hc
  · split at hc
    · cases hc; simp
    · split at hc <;> cases hc; simp
  · cases hc; exact .inl ⟨rfl, hfmt⟩

/-- What the checks of WRAP passing means (R84). -/
theorem wrapChecks_ok {cfg : Config} {fmt : BitVec 8} {w h st len : Word} {f : PixelFormat}
    (hc : wrapChecks cfg fmt w h st len = .ok f) :
    fmt = (formatCode f).setWidth 8 ∧ 0 < w.toInt ∧ 0 < h.toInt ∧ len.toNat = st.toNat * h.toNat ∧
      len.toNat ≤ cfg.pmemBytes.val := by
  unfold wrapChecks at hc
  rcases lookupFormat_cases fmt with ⟨g, hg, hfmt⟩ | ⟨hg, -⟩ <;> rw [hg] at hc <;> simp only at hc
  · split at hc
    · cases hc
    · next hd =>
      split at hc
      · cases hc
      · next hlen =>
        split at hc
        · cases hc
        · next hcap =>
          cases hc
          have hd := badDimensions_eq_false.mp (by simpa using hd)
          have hh := (toNat_of_toInt_pos hd.2).1
          have hl : (u32 len : Int) = u32 st * s32 h := by simpa using hlen
          refine ⟨hfmt, hd.1, hd.2, ?_, by simpa [u32] using hcap⟩
          have : (len.toNat : Int) = (st.toNat : Int) * (h.toNat : Int) := by rw [hh]; exact hl
          exact_mod_cast this
  · cases hc

/-- Which faults the checks of WRAP can raise (R84). -/
theorem wrapChecks_error {cfg : Config} {fmt : BitVec 8} {w h st len : Word} {e : ErrCode}
    (hc : wrapChecks cfg fmt w h st len = .error e) :
    (e = .unsupportedFormat ∧ 4 ≤ fmt.toNat) ∨ e = .invalidDimensions ∨ e = .bufferSizeMismatch ∨
      e = .capacityExceeded := by
  unfold wrapChecks at hc
  rcases lookupFormat_cases fmt with ⟨g, hg, -⟩ | ⟨hg, hfmt⟩ <;> rw [hg] at hc <;> simp only at hc
  · split at hc
    · cases hc; simp
    · split at hc
      · cases hc; simp
      · split at hc <;> cases hc; simp
  · cases hc; exact .inl ⟨rfl, hfmt⟩

end Sys2Proof.Machine
end

