-- ==== Sys2Proof/Laws/Decode.lean ====
section
/-!
SUPPORT. The fields of a header word, which row it selects, and that no two rows of the opcode map overlap.
-/

namespace Sys2Proof

/-! ## Header fields -/

/-- The fields of a built header (R51). -/
theorem header_fields (opc fmt : BitVec 8) (plen : BitVec 9) :
    (header opc fmt plen).extractLsb' 0 8 = opc ∧ fmtField (header opc fmt plen) = fmt ∧
      plenField (header opc fmt plen) = plen ∧ (header opc fmt plen).extractLsb' 25 7 = 0 := by
  have hf := fmt.isLt
  have ho := opc.isLt
  have hp := plen.isLt
  have hz : (0 : BitVec 7).toNat = 0 := rfl
  have key : (header opc fmt plen).toNat = plen.toNat * 65536 + fmt.toNat * 256 + opc.toNat := by
    unfold header
    rw [BitVec.toNat_append, BitVec.toNat_append, BitVec.toNat_append, ← Nat.shiftLeft_add_eq_or_of_lt ho,
      ← Nat.shiftLeft_add_eq_or_of_lt hf, ← Nat.shiftLeft_add_eq_or_of_lt hp]
    simp only [Nat.shiftLeft_eq, hz]
    omega
  refine ⟨BitVec.eq_of_toNat_eq ?_, BitVec.eq_of_toNat_eq ?_, BitVec.eq_of_toNat_eq ?_, BitVec.eq_of_toNat_eq ?_⟩ <;>
    simp only [fmtField, plenField, BitVec.extractLsb'_toNat, key, Nat.shiftRight_eq_div_pow, hz] <;>
    omega

/-- A word is the header of its fields when bits 31:25 are 0 (R51). -/
theorem header_of_fields {w0 : Word} (h : w0.extractLsb' 25 7 = 0) :
    header (w0.extractLsb' 0 8) (fmtField w0) (plenField w0) = w0 := by
  unfold header fmtField plenField
  rw [← h, BitVec.extractLsb'_append_extractLsb'_eq_extractLsb' (by rfl),
    BitVec.extractLsb'_append_extractLsb'_eq_extractLsb' (by rfl),
    BitVec.extractLsb'_append_extractLsb'_eq_extractLsb' (by rfl)]
  exact BitVec.extractLsb'_eq_self

/-! ## Masks -/

/-- A header selects a row with mask `0xFFFFFFFF` when it is the row's pattern. -/
theorem and_ones (w p : Word) : (w &&& 0xFFFFFFFF#32 == p) = decide (w = p) := by
  have : w &&& 0xFFFFFFFF#32 = w := by
    rw [show (0xFFFFFFFF#32 : Word) = BitVec.allOnes 32 from rfl, BitVec.and_allOnes]
  rw [this]; rfl

/-- Equality of a masked word, bit by bit. -/
theorem and_mask_iff {w m p : Word} :
    w &&& m = p ↔ ∀ j, j < 32 → (w.getLsbD j && m.getLsbD j) = p.getLsbD j := by
  constructor
  · rintro rfl j -
    exact (BitVec.getLsbD_and ..).symm
  · exact fun h => BitVec.eq_of_getLsbD_eq fun j hj => (BitVec.getLsbD_and ..).trans (h j hj)

/-- Equality of a field, bit by bit. -/
theorem field_eq_iff {w : Word} {start len : Nat} {v : BitVec len} :
    w.extractLsb' start len = v ↔ ∀ j, j < len → w.getLsbD (start + j) = v.getLsbD j := by
  constructor
  · rintro rfl j hj
    simp [hj]
  · exact fun h => BitVec.eq_of_getLsbD_eq fun j hj => by simpa [hj] using h j hj

/-- The bits of a word that holds only an opcode. -/
theorem getLsbD_opcode_word (opc : BitVec 8) (j : Nat) :
    ((0 : BitVec 24) ++ opc : Word).getLsbD j = opc.getLsbD j := by
  rw [BitVec.getLsbD_append]
  split
  · rfl
  · next h => rw [BitVec.getLsbD_of_ge opc j (by omega)]; exact BitVec.getLsbD_zero

/-- The mask `0xFFFF00FF` frees `FMT`, fixes the opcode and requires `PLEN` and bits 31:25 to be 0 (R55). -/
theorem and_fmt_mask (w : Word) (opc : BitVec 8) :
    w &&& 0xFFFF00FF#32 = (0 : BitVec 24) ++ opc ↔
      w.extractLsb' 0 8 = opc ∧ plenField w = 0 ∧ w.extractLsb' 25 7 = 0 := by
  have hm : ∀ j, j < 32 → (0xFFFF00FF#32).getLsbD j = decide (j < 8 ∨ 16 ≤ j) := by decide
  unfold plenField
  rw [and_mask_iff, field_eq_iff, field_eq_iff, field_eq_iff]
  simp only [getLsbD_opcode_word]
  constructor
  · intro h
    refine ⟨fun j hj => ?_, fun j hj => ?_, fun j hj => ?_⟩
    · have := h j (by omega)
      rw [hm j (by omega)] at this
      simpa [hj] using this
    · have := h (16 + j) (by omega)
      rw [hm _ (by omega), BitVec.getLsbD_of_ge opc _ (by omega)] at this
      simpa using this
    · have := h (25 + j) (by omega)
      rw [hm _ (by omega), BitVec.getLsbD_of_ge opc _ (by omega)] at this
      simpa [show 16 ≤ 25 + j by omega] using this
  · rintro ⟨h0, h1, h2⟩ j hj
    rw [hm j hj]
    by_cases h8 : j < 8
    · simpa [h8] using h0 j h8
    · rw [BitVec.getLsbD_of_ge opc j (by omega)]
      by_cases h25 : 25 ≤ j
      · have := h2 (j - 25) (by omega)
        rw [show 25 + (j - 25) = j by omega] at this
        simp [this]
      · by_cases h16 : 16 ≤ j
        · have := h1 (j - 16) (by omega)
          rw [show 16 + (j - 16) = j by omega] at this
          simp [this]
        · simp [h8, h16]

/-- The mask `0xFE0000FF` frees `FMT` and `PLEN`, fixes the opcode and requires bits 31:25 to be 0 (R55). -/
theorem and_wrap_mask (w : Word) (opc : BitVec 8) :
    w &&& 0xFE0000FF#32 = (0 : BitVec 24) ++ opc ↔ w.extractLsb' 0 8 = opc ∧ w.extractLsb' 25 7 = 0 := by
  have hm : ∀ j, j < 32 → (0xFE0000FF#32).getLsbD j = decide (j < 8 ∨ 25 ≤ j) := by decide
  rw [and_mask_iff, field_eq_iff, field_eq_iff]
  simp only [getLsbD_opcode_word]
  constructor
  · intro h
    refine ⟨fun j hj => ?_, fun j hj => ?_⟩
    · have := h j (by omega)
      rw [hm j (by omega)] at this
      simpa [hj] using this
    · have := h (25 + j) (by omega)
      rw [hm _ (by omega), BitVec.getLsbD_of_ge opc _ (by omega)] at this
      simpa using this
  · rintro ⟨h0, h2⟩ j hj
    rw [hm j hj]
    by_cases h8 : j < 8
    · simpa [h8] using h0 j h8
    · rw [BitVec.getLsbD_of_ge opc j (by omega)]
      by_cases h25 : 25 ≤ j
      · have := h2 (j - 25) (by omega)
        rw [show 25 + (j - 25) = j by omega] at this
        simp [this]
      · simp [h8, h25]

/-- A word with opcode `opc` and no other field. -/
theorem eq_opcode_word_iff (w : Word) (opc : BitVec 8) :
    w = (0 : BitVec 24) ++ opc ↔
      w.extractLsb' 0 8 = opc ∧ fmtField w = 0 ∧ plenField w = 0 ∧ w.extractLsb' 25 7 = 0 := by
  constructor
  · intro h
    have hw : w = header opc 0 0 := h.trans rfl
    rw [hw]
    exact header_fields opc 0 0
  · rintro ⟨h0, h1, h2, h3⟩
    rw [← header_of_fields h3, h0, h1, h2]
    rfl

/-- The mask `0xFFFFFFFF` fixes the opcode and requires every other field to be 0 (R55). -/
theorem and_ones_mask (w : Word) (opc : BitVec 8) :
    w &&& 0xFFFFFFFF#32 = (0 : BitVec 24) ++ opc ↔
      w.extractLsb' 0 8 = opc ∧ fmtField w = 0 ∧ plenField w = 0 ∧ w.extractLsb' 25 7 = 0 := by
  rw [← eq_opcode_word_iff, show (0xFFFFFFFF#32 : Word) = BitVec.allOnes 32 from rfl, BitVec.and_allOnes]

/-! ## The opcode map -/

/-- The opcode byte that a row's pattern holds. -/
def rowOpcode (row : OpcodeRow) : BitVec 8 := row.pattern.extractLsb' 0 8

/-- Different rows have different opcode bytes (R55). -/
theorem rowOpcode_injective : ∀ a ∈ opcodeMap, ∀ b ∈ opcodeMap, rowOpcode a = rowOpcode b → a = b := by decide

/-- Every row fixes the opcode byte: its mask covers bits 7:0. -/
theorem mask_covers_opcode : ∀ row ∈ opcodeMap, row.mask.extractLsb' 0 8 = 0xFF := by decide

/-- A header that matches a row has the row's opcode byte. -/
theorem opcode_of_match {row : OpcodeRow} (h : row ∈ opcodeMap) {w : Word} (hw : w &&& row.mask = row.pattern) :
    w.extractLsb' 0 8 = rowOpcode row := by
  unfold rowOpcode
  rw [← hw, BitVec.extractLsb'_and, mask_covers_opcode row h]
  exact BitVec.and_allOnes.symm

/-- No header matches two rows. -/
theorem opcodeMap_no_overlap {a b : OpcodeRow} (ha : a ∈ opcodeMap) (hb : b ∈ opcodeMap) {w : Word}
    (hwa : w &&& a.mask = a.pattern) (hwb : w &&& b.mask = b.pattern) : a = b :=
  rowOpcode_injective a ha b hb ((opcode_of_match ha hwa).symm.trans (opcode_of_match hb hwb))

/-- A header selects exactly the row it matches (R55, R56). -/
theorem selectRow_eq_some_iff {w : Word} {row : OpcodeRow} :
    selectRow w = some row ↔ row ∈ opcodeMap ∧ w &&& row.mask = row.pattern := by
  unfold selectRow
  constructor
  · intro h
    exact ⟨List.mem_of_find?_eq_some h, by simpa using List.find?_some h⟩
  · rintro ⟨hm, hw⟩
    have hs : (opcodeMap.find? fun r => w &&& r.mask == r.pattern).isSome :=
      List.find?_isSome.mpr ⟨row, hm, by simpa using hw⟩
    obtain ⟨r, hr⟩ := Option.isSome_iff_exists.mp hs
    rw [hr, opcodeMap_no_overlap (List.mem_of_find?_eq_some hr) hm (by simpa using List.find?_some hr) hw]

/-- The header of a row with mask `0xFFFF00FF` selects it, whatever `FMT` is. -/
theorem selectRow_fmt_header {row : OpcodeRow} (h : row ∈ opcodeMap) (hm : row.mask = 0xFFFF00FF#32) {opc : BitVec 8}
    (hp : row.pattern = (0 : BitVec 24) ++ opc) (fmt : BitVec 8) : selectRow (header opc fmt 0) = some row := by
  obtain ⟨h0, -, h2, h3⟩ := header_fields opc fmt 0
  exact selectRow_eq_some_iff.mpr ⟨h, by rw [hm, hp]; exact (and_fmt_mask _ opc).mpr ⟨h0, h2, h3⟩⟩

/-- The header of a row with mask `0xFE0000FF` selects it, whatever `FMT` and `PLEN` are. -/
theorem selectRow_wrap_header {row : OpcodeRow} (h : row ∈ opcodeMap) (hm : row.mask = 0xFE0000FF#32) {opc : BitVec 8}
    (hp : row.pattern = (0 : BitVec 24) ++ opc) (fmt : BitVec 8) (plen : BitVec 9) :
    selectRow (header opc fmt plen) = some row := by
  obtain ⟨h0, -, -, h3⟩ := header_fields opc fmt plen
  exact selectRow_eq_some_iff.mpr ⟨h, by rw [hm, hp]; exact (and_wrap_mask _ opc).mpr ⟨h0, h3⟩⟩

/-! ## Everything `decode` does with a header (R60) -/

theorem decode_illegal {cfg : Config} {w0 : Word} {ops : List Word} (h : selectRow w0 = none) :
    decode cfg (w0 :: ops) = .illegal .noOpcodeRow := by simp [decode, h]

theorem decode_short {cfg : Config} {w0 : Word} {ops : List Word} {row : OpcodeRow} (h : selectRow w0 = some row)
    (hl : ops.length + 1 < row.words) : decode cfg (w0 :: ops) = .needMore := by simp [decode, h, hl]

theorem decode_whole {cfg : Config} {w0 : Word} {ops : List Word} {row : OpcodeRow} (h : selectRow w0 = some row)
    (hl : row.words ≤ ops.length + 1) : decode cfg (w0 :: ops) = decodeOperands cfg row.op w0 ops := by
  simp [decode, h, Nat.not_lt.mpr hl]

/-- `decodeWrap` with its four operand words named (R58, R60). -/
theorem decodeWrap_cons {cfg : Config} {fmt : BitVec 8} {plen : BitVec 9} (hp : plen.toNat ≤ Config.palEntries)
    (width height stride len : Word) (payload : List Word) :
    decodeWrap cfg (header 0x11 fmt plen) (width :: height :: stride :: len :: payload) =
      match Machine.wrapChecks cfg fmt width height stride len with
      | .error _ => .packet (.wrap fmt plen width height stride len [] []) 0
      | .ok _ =>
        if payload.length < plen.toNat + Machine.dataWords (Machine.u32 len) then .needMore
        else
          .packet
            (.wrap fmt plen width height stride len (payload.take plen.toNat)
              ((payload.drop plen.toNat).take (Machine.dataWords (Machine.u32 len))))
            (5 + (plen.toNat + Machine.dataWords (Machine.u32 len))) := by
  obtain ⟨-, h1, h2, -⟩ := header_fields 0x11 fmt plen
  unfold decodeWrap
  rw [h1, h2]
  exact if_neg (Nat.not_lt.mpr hp)

end Sys2Proof
end

