-- ==== Sys2Proof/Laws/Memory.lean ====
section
/-!
SUPPORT. The laws of PMEM: a read after a write, the frame of a write, the loads of CREATE and WRAP, and that every memory
operation keeps the canonical form.
-/

namespace Sys2Proof.Machine

/-! ## Reading -/

/-- An address no cell lists reads as `unlistedByte`. -/
theorem memRead_of_absent {m : Memory} {a : Nat} (h : ∀ c ∈ m, c.1 ≠ a) : memRead m a = unlistedByte := by
  induction m with
  | nil => rfl
  | cons c cs ih =>
    simp only [List.mem_cons, forall_eq_or_imp] at h
    simp [memRead, h.1, ih h.2]

/-! ## One byte -/

theorem mem_memErase {m : Memory} {a : Nat} {c : Host.Cell} : c ∈ memErase m a ↔ c ∈ m ∧ c.1 ≠ a := by
  simp [memErase]

theorem memRead_memErase_self (m : Memory) (a : Nat) : memRead (memErase m a) a = unlistedByte :=
  memRead_of_absent fun _ hc => (mem_memErase.mp hc).2

theorem memRead_memErase_ne {m : Memory} {a a' : Nat} (hne : a' ≠ a) : memRead (memErase m a) a' = memRead m a' := by
  induction m with
  | nil => rfl
  | cons c cs ih =>
    unfold memErase at ih ⊢
    rw [List.filter_cons]
    by_cases hc : c.1 = a
    · have hca : c.1 ≠ a' := fun h => hne (h.symm.trans hc)
      rw [if_neg (by simpa using hc), ih, memRead, if_neg hca]
    · rw [if_pos (by simpa using hc), memRead, memRead, ih]

theorem memRead_memInsert_self {m : Memory} {x : Host.Cell} (h : ∀ c ∈ m, c.1 ≠ x.1) :
    memRead (memInsert m x) x.1 = x.2 := by
  induction m with
  | nil => simp [memInsert, memRead]
  | cons c cs ih =>
    simp only [List.mem_cons, forall_eq_or_imp] at h
    unfold memInsert
    split
    · simp [memRead, h.1, ih h.2]
    · simp [memRead]

theorem memRead_memInsert_ne {m : Memory} {x : Host.Cell} {a : Nat} (h : x.1 ≠ a) :
    memRead (memInsert m x) a = memRead m a := by
  induction m with
  | nil => simp [memInsert, memRead, h]
  | cons c cs ih =>
    unfold memInsert
    split
    · simp [memRead, ih]
    · simp [memRead, h]

theorem mem_memInsert {m : Memory} {x c : Host.Cell} (h : c ∈ memInsert m x) : c = x ∨ c ∈ m := by
  induction m with
  | nil => simpa [memInsert] using h
  | cons d ds ih =>
    unfold memInsert at h
    split at h
    · rcases List.mem_cons.mp h with h | h
      · exact .inr (h ▸ List.mem_cons_self)
      · exact (ih h).imp_right (List.mem_cons_of_mem _)
    · exact List.mem_cons.mp h

/-- A read of the address just written gives the byte written. -/
theorem memRead_memPut_self (m : Memory) (a : Nat) (b : Byte) : memRead (memPut m a b) a = b := by
  unfold memPut
  split
  · next hb => rw [memRead_memErase_self, hb]
  · exact memRead_memInsert_self (x := (a, b)) fun c hc => (mem_memErase.mp hc).2

/-- A read of any other address is unchanged by a write. -/
theorem memRead_memPut_ne {m : Memory} {a a' : Nat} (hne : a' ≠ a) (b : Byte) :
    memRead (memPut m a b) a' = memRead m a' := by
  unfold memPut
  split
  · exact memRead_memErase_ne hne
  · rw [memRead_memInsert_ne (x := (a, b)) hne.symm, memRead_memErase_ne hne]

/-- The cells a written memory lists. -/
theorem mem_memPut {m : Memory} {a : Nat} {b : Byte} {c : Host.Cell} (h : c ∈ memPut m a b) :
    c ∈ m ∨ (c = (a, b) ∧ b ≠ unlistedByte) := by
  unfold memPut at h
  split at h
  · exact .inl (mem_memErase.mp h).1
  · next hb =>
    rcases mem_memInsert h with h | h
    · exact .inr ⟨h, hb⟩
    · exact .inl (mem_memErase.mp h).1

theorem pairwise_memInsert {m : Memory} {x : Host.Cell} (h : m.Pairwise fun c d => c.1 < d.1)
    (hx : ∀ c ∈ m, c.1 ≠ x.1) : (memInsert m x).Pairwise fun c d => c.1 < d.1 := by
  induction m with
  | nil => simp [memInsert]
  | cons c cs ih =>
    have hc := List.pairwise_cons.mp h
    simp only [List.mem_cons, forall_eq_or_imp] at hx
    unfold memInsert
    split
    · next hlt =>
      refine List.pairwise_cons.mpr ⟨fun d hd => ?_, ih hc.2 hx.2⟩
      rcases mem_memInsert hd with rfl | hd
      · exact hlt
      · exact hc.1 d hd
    · next hge =>
      refine List.pairwise_cons.mpr ⟨fun d hd => ?_, h⟩
      rcases List.mem_cons.mp hd with rfl | hd
      · have := hx.1; omega
      · have := hc.1 d hd; omega

/-- Writing a byte keeps the canonical form. -/
theorem memWf_memPut {m : Memory} (h : memWf m) (a : Nat) (b : Byte) : memWf (memPut m a b) := by
  refine ⟨?_, fun c hc => ?_⟩
  · unfold memPut
    split
    · exact h.1.filter _
    · exact pairwise_memInsert (h.1.filter _) fun c hc => (mem_memErase.mp hc).2
  · rcases mem_memPut hc with hc | ⟨rfl, hb⟩
    · exact h.2 c hc
    · exact hb

/-! ## Runs of bytes -/

/-- Writing bytes keeps the canonical form. -/
theorem memWf_memWriteBytes {m : Memory} (h : memWf m) (addr : Nat) (bs : List Byte) :
    memWf (memWriteBytes m addr bs) := by
  induction bs generalizing m addr with
  | nil => exact h
  | cons b bs ih => exact ih (memWf_memPut h addr b) (addr + 1)

/-- A write leaves every address outside its bytes alone. -/
theorem memRead_memWriteBytes_of_outside {m : Memory} {addr a : Nat} {bs : List Byte}
    (h : a < addr ∨ addr + bs.length ≤ a) : memRead (memWriteBytes m addr bs) a = memRead m a := by
  induction bs generalizing m addr with
  | nil => rfl
  | cons b bs ih =>
    simp only [List.length_cons] at h
    rw [memWriteBytes, ih (by omega), memRead_memPut_ne (by omega)]

/-- A read inside the bytes just written gives the byte written there. -/
theorem memRead_memWriteBytes_of_inside {m : Memory} {addr i : Nat} {bs : List Byte}
    (h : i < bs.length) : memRead (memWriteBytes m addr bs) (addr + i) = bs[i] := by
  induction bs generalizing m addr i with
  | nil => simp at h
  | cons b bs ih =>
    cases i with
    | zero => rw [memWriteBytes, memRead_memWriteBytes_of_outside (by omega)]; exact memRead_memPut_self _ _ _
    | succ i =>
      rw [memWriteBytes, show addr + (i + 1) = addr + 1 + i by omega]
      simpa using ih (m := memPut m addr b) (addr := addr + 1) (by simpa using h)

/-- Every cell of a memory after a write was listed before or lies in the bytes written. -/
theorem mem_memWriteBytes {m : Memory} {addr : Nat} {bs : List Byte} {c : Host.Cell}
    (h : c ∈ memWriteBytes m addr bs) : c ∈ m ∨ (addr ≤ c.1 ∧ c.1 < addr + bs.length) := by
  induction bs generalizing m addr with
  | nil => exact .inl h
  | cons b bs ih =>
    simp only [List.length_cons]
    rcases ih h with h | h
    · rcases mem_memPut h with h | ⟨rfl, -⟩
      · exact .inl h
      · exact .inr ⟨le_refl _, by simp⟩
    · exact .inr (by omega)

/-! ## The loads of CREATE and WRAP -/

/-- The addresses that `cellsOf` lists. -/
theorem mem_cellsOf {addr : Nat} {bs : List Byte} {c : Host.Cell} (h : c ∈ cellsOf addr bs) :
    addr ≤ c.1 ∧ c.1 < addr + bs.length ∧ c.2 ≠ unlistedByte := by
  induction bs generalizing addr with
  | nil => simp [cellsOf] at h
  | cons b bs ih =>
    simp only [List.length_cons]
    unfold cellsOf at h
    split at h
    · have := ih h; exact ⟨by omega, by omega, this.2.2⟩
    · next hb =>
      rcases List.mem_cons.mp h with rfl | h
      · exact ⟨le_refl _, by simp, hb⟩
      · have := ih h; exact ⟨by omega, by omega, this.2.2⟩

/-- `cellsOf` is canonical. -/
theorem memWf_cellsOf (addr : Nat) (bs : List Byte) : memWf (cellsOf addr bs) := by
  refine ⟨?_, fun c hc => (mem_cellsOf hc).2.2⟩
  induction bs generalizing addr with
  | nil => simp [cellsOf]
  | cons b bs ih =>
    unfold cellsOf
    split
    · exact ih _
    · exact List.pairwise_cons.mpr ⟨fun d hd => (mem_cellsOf hd).1, ih _⟩

/-- Reading the cells of placed bytes. -/
theorem memRead_cellsOf {addr i : Nat} {bs : List Byte} (h : i < bs.length) :
    memRead (cellsOf addr bs) (addr + i) = bs[i] := by
  induction bs generalizing addr i with
  | nil => simp at h
  | cons b bs ih =>
    cases i with
    | zero =>
      unfold cellsOf
      split
      · next hb =>
        rw [memRead_of_absent fun c hc => by have := (mem_cellsOf hc).1; omega]
        simpa using hb.symm
      · simp [memRead]
    | succ i =>
      have := ih (addr := addr + 1) (i := i) (by simpa using h)
      rw [show addr + (i + 1) = addr + 1 + i by omega]
      unfold cellsOf
      split
      · simpa using this
      · have hne : addr ≠ addr + 1 + i := by omega
        simpa [memRead, hne] using this

/-- Reading an appended memory below and above the split. -/
theorem memRead_append_left {m m' : Memory} {a : Nat} (h : ∀ c ∈ m', c.1 ≠ a) :
    memRead (m ++ m') a = memRead m a := by
  induction m with
  | nil => exact memRead_of_absent h
  | cons c cs ih => simp [memRead, ih]

theorem memRead_append_right {m m' : Memory} {a : Nat} (h : ∀ c ∈ m, c.1 ≠ a) :
    memRead (m ++ m') a = memRead m' a := by
  induction m with
  | nil => rfl
  | cons c cs ih =>
    simp only [List.mem_cons, forall_eq_or_imp] at h
    simp [memRead, h.1, ih h.2]

/-- Reading the part of a memory from `n` on. -/
theorem memRead_memFrom {m : Memory} {n a : Nat} (h : n ≤ a) : memRead (memFrom m n) a = memRead m a := by
  induction m with
  | nil => rfl
  | cons c cs ih =>
    unfold memFrom at ih ⊢
    by_cases hc : n ≤ c.1
    · simp [hc, memRead, ih]
    · have : c.1 ≠ a := by omega
      simp [hc, memRead, ih, this]

theorem mem_memFrom {m : Memory} {n : Nat} {c : Host.Cell} (h : c ∈ memFrom m n) : c ∈ m ∧ n ≤ c.1 := by
  simpa [memFrom] using h

/-- A load gives its bytes at the addresses below their number. -/
theorem memRead_memLoad_of_lt {m : Memory} {bs : List Byte} {a : Nat} (h : a < bs.length) :
    memRead (memLoad m bs) a = bs[a] := by
  unfold memLoad
  rw [memRead_append_left fun c hc => by have := (mem_memFrom hc).2; omega]
  simpa using memRead_cellsOf (addr := 0) h

/-- A load leaves every address at or above the number of its bytes alone. -/
theorem memRead_memLoad_of_le {m : Memory} {bs : List Byte} {a : Nat} (h : bs.length ≤ a) :
    memRead (memLoad m bs) a = memRead m a := by
  unfold memLoad
  rw [memRead_append_right fun c hc => by have := (mem_cellsOf hc).2.1; omega, memRead_memFrom h]

/-- A load keeps the canonical form. -/
theorem memWf_memLoad {m : Memory} (h : memWf m) (bs : List Byte) : memWf (memLoad m bs) := by
  refine ⟨List.pairwise_append.mpr ⟨(memWf_cellsOf 0 bs).1, h.1.filter _, fun c hc d hd => ?_⟩, fun c hc => ?_⟩
  · have := (mem_cellsOf hc).2.1
    have := (mem_memFrom hd).2
    omega
  · rcases List.mem_append.mp hc with hc | hc
    · exact (mem_cellsOf hc).2.2
    · exact h.2 c (mem_memFrom hc).1

/-- Every cell after a load was listed before or lies in the bytes loaded. -/
theorem mem_memLoad {m : Memory} {bs : List Byte} {c : Host.Cell} (h : c ∈ memLoad m bs) :
    c ∈ m ∨ c.1 < bs.length := by
  rcases List.mem_append.mp h with h | h
  · exact .inr (by simpa using (mem_cellsOf h).2.1)
  · exact .inl (mem_memFrom h).1

/-- The zero fill reads 0 below `n`. -/
theorem memRead_memZero_of_lt {m : Memory} {n a : Nat} (h : a < n) : memRead (memZero m n) a = 0 := by
  unfold memZero
  rw [memRead_memLoad_of_lt (by simpa using h)]
  simp

/-- The zero fill leaves every address at or above `n` alone. -/
theorem memRead_memZero_of_le {m : Memory} {n a : Nat} (h : n ≤ a) : memRead (memZero m n) a = memRead m a :=
  memRead_memLoad_of_le (by simpa using h)

/-- The zero fill keeps the canonical form. -/
theorem memWf_memZero {m : Memory} (h : memWf m) (n : Nat) : memWf (memZero m n) := memWf_memLoad h _

end Sys2Proof.Machine
end

