-- ==== Sys2Proof/Laws/State.lean ====
section
/-!
SUPPORT. One lemma per field for each named update of the state, so that no later proof unfolds a record update.
-/

namespace Sys2Proof.Machine

section
variable (v : Word) (e : ErrCode) (s : State) (m : Memory)

@[simp] theorem outPush_pos : (outPush v s).pos = s.pos := rfl
@[simp] theorem outPush_bound : (outPush v s).bound = s.bound := rfl
@[simp] theorem outPush_fault : (outPush v s).fault = s.fault := rfl
@[simp] theorem outPush_errcode : (outPush v s).errcode = s.errcode := rfl
@[simp] theorem outPush_format : (outPush v s).format = s.format := rfl
@[simp] theorem outPush_width : (outPush v s).width = s.width := rfl
@[simp] theorem outPush_height : (outPush v s).height = s.height := rfl
@[simp] theorem outPush_stride : (outPush v s).stride = s.stride := rfl
@[simp] theorem outPush_dlen : (outPush v s).dlen = s.dlen := rfl
@[simp] theorem outPush_plen : (outPush v s).plen = s.plen := rfl
@[simp] theorem outPush_pal : (outPush v s).pal = s.pal := rfl
@[simp] theorem outPush_pmem : (outPush v s).pmem = s.pmem := rfl
@[simp] theorem outPush_out : (outPush v s).out = s.out ++ [v] := rfl
@[simp] theorem outPush_stream : (outPush v s).stream = s.stream := rfl
@[simp] theorem outPush_cfg : (outPush v s).cfg = s.cfg := rfl

@[simp] theorem raise_pos : (raise e s).pos = s.pos := rfl
@[simp] theorem raise_bound : (raise e s).bound = s.bound := rfl
@[simp] theorem raise_fault : (raise e s).fault = true := rfl
@[simp] theorem raise_errcode : (raise e s).errcode = errorCode e := rfl
@[simp] theorem raise_format : (raise e s).format = s.format := rfl
@[simp] theorem raise_width : (raise e s).width = s.width := rfl
@[simp] theorem raise_height : (raise e s).height = s.height := rfl
@[simp] theorem raise_stride : (raise e s).stride = s.stride := rfl
@[simp] theorem raise_dlen : (raise e s).dlen = s.dlen := rfl
@[simp] theorem raise_plen : (raise e s).plen = s.plen := rfl
@[simp] theorem raise_pal : (raise e s).pal = s.pal := rfl
@[simp] theorem raise_pmem : (raise e s).pmem = s.pmem := rfl
@[simp] theorem raise_out : (raise e s).out = s.out := rfl
@[simp] theorem raise_stream : (raise e s).stream = s.stream := rfl
@[simp] theorem raise_cfg : (raise e s).cfg = s.cfg := rfl

@[simp] theorem setPmem_pos : (setPmem m s).pos = s.pos := rfl
@[simp] theorem setPmem_bound : (setPmem m s).bound = s.bound := rfl
@[simp] theorem setPmem_fault : (setPmem m s).fault = s.fault := rfl
@[simp] theorem setPmem_errcode : (setPmem m s).errcode = s.errcode := rfl
@[simp] theorem setPmem_format : (setPmem m s).format = s.format := rfl
@[simp] theorem setPmem_width : (setPmem m s).width = s.width := rfl
@[simp] theorem setPmem_height : (setPmem m s).height = s.height := rfl
@[simp] theorem setPmem_stride : (setPmem m s).stride = s.stride := rfl
@[simp] theorem setPmem_dlen : (setPmem m s).dlen = s.dlen := rfl
@[simp] theorem setPmem_plen : (setPmem m s).plen = s.plen := rfl
@[simp] theorem setPmem_pal : (setPmem m s).pal = s.pal := rfl
@[simp] theorem setPmem_out : (setPmem m s).out = s.out := rfl
@[simp] theorem setPmem_stream : (setPmem m s).stream = s.stream := rfl
@[simp] theorem setPmem_cfg : (setPmem m s).cfg = s.cfg := rfl
@[simp] theorem setPmem_pmem : (setPmem m s).pmem = m := rfl
@[simp] theorem setPmem_self : setPmem s.pmem s = s := rfl
@[simp] theorem setPmem_setPmem (m' : Memory) : setPmem m (setPmem m' s) = setPmem m s := rfl

/-- What `raise` is, for statements that write the fault record out. -/
theorem raise_eq : raise e s = { s with fault := true, errcode := errorCode e } := rfl

end

section
variable (f : PixelFormat) (w h st d : Word) (p : BitVec 9) (s : State)

@[simp] theorem bindBuffer_pos : (bindBuffer f w h st d p s).pos = s.pos := rfl
@[simp] theorem bindBuffer_bound : (bindBuffer f w h st d p s).bound = true := rfl
@[simp] theorem bindBuffer_fault : (bindBuffer f w h st d p s).fault = s.fault := rfl
@[simp] theorem bindBuffer_errcode : (bindBuffer f w h st d p s).errcode = s.errcode := rfl
@[simp] theorem bindBuffer_format : (bindBuffer f w h st d p s).format = f := rfl
@[simp] theorem bindBuffer_width : (bindBuffer f w h st d p s).width = w := rfl
@[simp] theorem bindBuffer_height : (bindBuffer f w h st d p s).height = h := rfl
@[simp] theorem bindBuffer_stride : (bindBuffer f w h st d p s).stride = st := rfl
@[simp] theorem bindBuffer_dlen : (bindBuffer f w h st d p s).dlen = d := rfl
@[simp] theorem bindBuffer_plen : (bindBuffer f w h st d p s).plen = p := rfl
@[simp] theorem bindBuffer_pal : (bindBuffer f w h st d p s).pal = s.pal := rfl
@[simp] theorem bindBuffer_pmem : (bindBuffer f w h st d p s).pmem = s.pmem := rfl
@[simp] theorem bindBuffer_out : (bindBuffer f w h st d p s).out = s.out := rfl
@[simp] theorem bindBuffer_stream : (bindBuffer f w h st d p s).stream = s.stream := rfl
@[simp] theorem bindBuffer_cfg : (bindBuffer f w h st d p s).cfg = s.cfg := rfl

end

/-- `retire` on a state with no fault moves `pos`. -/
theorem retire_of_no_fault {n : Nat} {s : State} (h : s.fault = false) :
    retire n s = { s with pos := s.pos + n } := by simp [retire, h]

/-- `retire` on a faulted state does nothing. -/
theorem retire_of_fault {n : Nat} {s : State} (h : s.fault = true) : retire n s = s := by simp [retire, h]

@[simp] theorem outcome_done (s : State) : (Ran.done s).outcome = .next s := rfl
@[simp] theorem outcome_raised (e : ErrCode) (s : State) : (Ran.raised e s).outcome = .next (raise e s) := rfl
@[simp] theorem state_done (s : State) : (Ran.done s).state = s := rfl
@[simp] theorem state_raised (e : ErrCode) (s : State) : (Ran.raised e s).state = s := rfl
@[simp] theorem andThen_done (s : State) (k : State → Ran) : (Ran.done s).andThen k = k s := rfl
@[simp] theorem andThen_raised (e : ErrCode) (s : State) (k : State → Ran) :
    (Ran.raised e s).andThen k = .raised e s := rfl

/-- `needBuffer` with a buffer runs the body. -/
theorem needBuffer_bound {s : State} {k : State → Ran} (h : s.bound = true) : needBuffer s k = k s := by
  simp [needBuffer, h]

/-- `needBuffer` without one raises `NoBuffer` (R158). -/
theorem needBuffer_unbound {s : State} {k : State → Ran} (h : s.bound = false) :
    needBuffer s k = .raised .noBuffer s := by simp [needBuffer, h]

/-- The codes of R150 are 1 to 10. -/
theorem errorCode_range (e : ErrCode) : 1 ≤ (errorCode e).toNat ∧ (errorCode e).toNat ≤ 10 := by
  cases e <;> decide

/-- Different causes have different codes (R150). -/
theorem errorCode_injective {e e' : ErrCode} (h : errorCode e = errorCode e') : e = e' := by
  cases e <;> cases e' <;> first | rfl | exact absurd h (by decide)

/-- Whatever a body gives, its step answers a next state. -/
theorem outcome_next (r : Ran) : ∃ t, r.outcome = .next t := by
  cases r with
  | done s => exact ⟨s, rfl⟩
  | raised e s => exact ⟨_, rfl⟩

end Sys2Proof.Machine
end

