-- ==== Sys2Proof/Laws/Pixel.lean ====
section
/-!
SUPPORT. What the pixel procedures can do: the bounds test, pixel geometry in a well-formed buffer, and one lemma for each of
`GetPixel`, `SetPixel` and `Blend` that says every case once; then the runs of them the draw commands make.
-/

namespace Sys2Proof.Machine

/-! ## Geometry -/

/-- The bounds test (R87). -/
theorem inBounds_iff {s : State} {x y : Int} :
    inBounds s x y = true ↔ 0 ≤ x ∧ 0 ≤ y ∧ x < s.width.toNat ∧ y < s.height.toNat := by
  simp [inBounds, and_assoc]

theorem inBounds_eq_false_iff {s : State} {x y : Int} :
    inBounds s x y = false ↔ x < 0 ∨ y < 0 ∨ (s.width.toNat : Int) ≤ x ∨ (s.height.toNat : Int) ≤ y := by
  rw [← Bool.not_eq_true, inBounds_iff]; omega

/-- The geometry does not depend on the contents of PMEM. -/
@[simp] theorem inBounds_setPmem (s : State) (m : Memory) (x y : Int) :
    inBounds (setPmem m s) x y = inBounds s x y := rfl

@[simp] theorem pixelOffset_setPmem (s : State) (m : Memory) (x y : Int) :
    pixelOffset (setPmem m s) x y = pixelOffset s x y := rfl

/-- In a well-formed buffer a pixel lies in its row and in the buffer (R36). -/
theorem pixel_in_row {s : State} (h : WellFormedBuffer s) {x y : Int} (hb : inBounds s x y = true) :
    s.stride.toNat * y.toNat ≤ pixelOffset s x y ∧
    pixelOffset s x y + formatBytes s.format ≤ s.stride.toNat * (y.toNat + 1) ∧
    pixelOffset s x y + formatBytes s.format ≤ s.dlen.toNat := by
  obtain ⟨-, hd, hst⟩ := h
  obtain ⟨hx0, hy0, hx, hy⟩ := inBounds_iff.mp hb
  obtain ⟨a, rfl⟩ := Int.eq_ofNat_of_zero_le hx0
  obtain ⟨b, rfl⟩ := Int.eq_ofNat_of_zero_le hy0
  simp only [pixelOffset, Int.toNat_natCast]
  have hx : a + 1 ≤ s.width.toNat := by omega
  have hy : b + 1 ≤ s.height.toNat := by omega
  have h1 : formatBytes s.format * (a + 1) ≤ s.stride.toNat := (Nat.mul_le_mul_left _ hx).trans hst
  have h2 : s.stride.toNat * (b + 1) ≤ s.dlen.toNat := hd ▸ Nat.mul_le_mul_left _ hy
  rw [Nat.mul_add, Nat.mul_one] at h1 h2
  rw [Nat.mul_add, Nat.mul_one]
  exact ⟨by omega, by omega, by omega⟩

/-- Distinct in-bounds pixels of a well-formed buffer are disjoint (R36). -/
theorem pixels_disjoint {s : State} (h : WellFormedBuffer s) {x y x' y' : Int} (hb : inBounds s x y = true)
    (hb' : inBounds s x' y' = true) (hne : x ≠ x' ∨ y ≠ y') :
    pixelOffset s x y + formatBytes s.format ≤ pixelOffset s x' y' ∨
    pixelOffset s x' y' + formatBytes s.format ≤ pixelOffset s x y := by
  have hr := pixel_in_row h hb
  have hr' := pixel_in_row h hb'
  obtain ⟨hx0, hy0, -, -⟩ := inBounds_iff.mp hb
  obtain ⟨hx0', hy0', -, -⟩ := inBounds_iff.mp hb'
  obtain ⟨a, rfl⟩ := Int.eq_ofNat_of_zero_le hx0
  obtain ⟨b, rfl⟩ := Int.eq_ofNat_of_zero_le hy0
  obtain ⟨a', rfl⟩ := Int.eq_ofNat_of_zero_le hx0'
  obtain ⟨b', rfl⟩ := Int.eq_ofNat_of_zero_le hy0'
  simp only [Int.toNat_natCast, ne_eq, Int.natCast_inj] at hr hr' hne
  rcases Nat.lt_trichotomy b b' with hlt | rfl | hlt
  · have := Nat.mul_le_mul_left s.stride.toNat (show b + 1 ≤ b' from hlt)
    omega
  · simp only [pixelOffset, Int.toNat_natCast]
    rcases Nat.lt_trichotomy a a' with hlt | rfl | hlt
    · have := Nat.mul_le_mul_left (formatBytes s.format) (show a + 1 ≤ a' from hlt)
      rw [Nat.mul_add, Nat.mul_one] at this
      omega
    · simp at hne
    · have := Nat.mul_le_mul_left (formatBytes s.format) (show a' + 1 ≤ a from hlt)
      rw [Nat.mul_add, Nat.mul_one] at this
      omega
  · have := Nat.mul_le_mul_left s.stride.toNat (show b' + 1 ≤ b from hlt)
    omega

/-- In a well-formed buffer the access check of a direct pixel passes (R36). -/
theorem direct_access_ok {s : State} (h : DirectBuffer s) {x y : Int} (hb : inBounds s x y = true) :
    pixelOffset s x y + directBytes s.format ≤ s.dlen.toNat := by
  have := (pixel_in_row h.1 hb).2.2
  have := directBytes_le_formatBytes h.2
  omega

/-! ## Reading -/

/-- `GetPixel` out of bounds (R100). -/
theorem getPixel_out {s : State} {x y : Int} (h : inBounds s x y = false) :
    getPixel s x y = .ok transparentBlack := by simp [getPixel, h]

/-- `GetPixel` in bounds of a direct format (R102). -/
theorem getPixel_direct {s : State} {x y : Int} (h : inBounds s x y = true) (hf : s.format ≠ .indexed8) :
    getPixel s x y = directRead s (pixelOffset s x y) := by
  unfold getPixel
  rw [if_pos h]
  split
  · next he => exact absurd he hf
  · rfl

/-- `GetPixel` in bounds of an Indexed8 buffer (R103). -/
theorem getPixel_indexed {s : State} {x y : Int} (h : inBounds s x y = true) (hf : s.format = .indexed8) :
    getPixel s x y = paletteRead s (pixelOffset s x y) := by
  unfold getPixel
  rw [if_pos h, hf]

/-- The colour a direct read gives when its access check passes (R102). -/
theorem directRead_ok {s : State} {o : Nat} (h : o + directBytes s.format ≤ s.dlen.toNat) :
    directRead s o =
      .ok
        { b := memRead s.pmem o, g := memRead s.pmem (o + 1), r := memRead s.pmem (o + 2)
          a := if formatAlpha s.format then memRead s.pmem (o + 3) else 255 } := by
  rw [directRead, if_neg (by omega)]

/-- The faults of a read: `AccessFault` before `PaletteLookup` (R164), the second only on an Indexed8 buffer. -/
theorem getPixel_error {s : State} {x y : Int} {e : ErrCode} (h : getPixel s x y = .error e) :
    inBounds s x y = true ∧
      ((e = .accessFault ∧
          s.dlen.toNat < pixelOffset s x y + (if s.format = .indexed8 then 1 else directBytes s.format)) ∨
        (e = .paletteLookup ∧ s.format = .indexed8)) := by
  cases hb : inBounds s x y with
  | false => rw [getPixel_out hb] at h; cases h
  | true =>
    refine ⟨rfl, ?_⟩
    by_cases hf : s.format = .indexed8
    · rw [getPixel_indexed hb hf, paletteRead] at h
      split at h
      · next hlt => cases h; exact .inl ⟨rfl, by simpa [hf] using hlt⟩
      · simp only at h
        split at h
        · cases h; exact .inr ⟨rfl, hf⟩
        · cases h
    · rw [getPixel_direct hb hf, directRead] at h
      split at h
      · next hlt => cases h; exact .inl ⟨rfl, by simpa [hf] using hlt⟩
      · cases h

/-- A direct read depends only on the pixel's accessed bytes. -/
theorem getPixel_congr {s : State} {m : Memory} {x y : Int} (hf : s.format ≠ .indexed8)
    (h : inBounds s x y = true → ∀ a, PixelByte s x y a → memRead m a = memRead s.pmem a) :
    getPixel (setPmem m s) x y = getPixel s x y := by
  cases hb : inBounds s x y with
  | false => rw [getPixel_out hb, getPixel_out (by simpa using hb)]
  | true =>
    have h := h hb
    rw [getPixel_direct hb hf, getPixel_direct (s := setPmem m s) (by simpa using hb) hf]
    have h3 := directBytes_pos s.format
    have e0 := h _ ⟨le_refl _, by omega⟩
    have e1 := h (pixelOffset s x y + 1) ⟨by omega, by omega⟩
    have e2 := h (pixelOffset s x y + 2) ⟨by omega, by omega⟩
    have e3 : formatAlpha s.format = true → memRead m (pixelOffset s x y + 3) = memRead s.pmem (pixelOffset s x y + 3) :=
      fun ha => h _ ⟨by omega, by simp [directBytes, ha]⟩
    rw [pixelOffset_setPmem]
    unfold directRead
    simp only [setPmem_dlen, setPmem_format, setPmem_pmem, e0, e1, e2]
    by_cases ha : formatAlpha s.format = true
    · simp [ha, e3 ha]
    · simp [ha]

/-! ## Writing -/

theorem length_pixelBytes (f : PixelFormat) (c : Color) : (pixelBytes f c).length = directBytes f := by
  cases f <;> rfl

/-- The bytes of a stored pixel (R31). -/
theorem memRead_pixelBytes (m : Memory) (o : Nat) (f : PixelFormat) (c : Color) :
    memRead (memWriteBytes m o (pixelBytes f c)) o = c.b ∧
    memRead (memWriteBytes m o (pixelBytes f c)) (o + 1) = c.g ∧
    memRead (memWriteBytes m o (pixelBytes f c)) (o + 2) = c.r ∧
    (formatAlpha f = true → memRead (memWriteBytes m o (pixelBytes f c)) (o + 3) = c.a) := by
  have h {i : Nat} {b : Byte} (hb : (pixelBytes f c)[i]? = some b) :
      memRead (memWriteBytes m o (pixelBytes f c)) (o + i) = b := by
    obtain ⟨hi, rfl⟩ := List.getElem?_eq_some_iff.mp hb
    exact memRead_memWriteBytes_of_inside hi
  refine ⟨h (i := 0) ?_, h ?_, h ?_, fun ha => h ?_⟩
  · cases f <;> rfl
  · cases f <;> rfl
  · cases f <;> rfl
  · simp [pixelBytes, ha]

/-- `SetPixel` out of bounds (R104). -/
theorem setPixel_out {s : State} {x y : Int} {c : Color} (h : inBounds s x y = false) :
    setPixel x y c s = .done s := by simp [setPixel, h]

/-- `SetPixel` in bounds of an Indexed8 buffer (R105). -/
theorem setPixel_indexed {s : State} {x y : Int} {c : Color} (h : inBounds s x y = true)
    (hf : s.format = .indexed8) : setPixel x y c s = .raised .indexedWriteTarget s := by
  unfold setPixel
  rw [if_pos h, hf]

/-- `SetPixel` in bounds of a direct format (R104). -/
theorem setPixel_direct {s : State} {x y : Int} {c : Color} (h : inBounds s x y = true) (hf : s.format ≠ .indexed8) :
    setPixel x y c s =
      if s.dlen.toNat < pixelOffset s x y + directBytes s.format then .raised .accessFault s
      else .done (setPmem (memWriteBytes s.pmem (pixelOffset s x y) (pixelBytes s.format c)) s) := by
  unfold setPixel
  rw [if_pos h]
  split
  · next he => exact absurd he hf
  · rfl

/-- Everything `SetPixel` can do. -/
theorem setPixel_cases (s : State) (x y : Int) (c : Color) :
    (inBounds s x y = false ∧ setPixel x y c s = .done s) ∨
    (inBounds s x y = true ∧ s.format = .indexed8 ∧ setPixel x y c s = .raised .indexedWriteTarget s) ∨
    (inBounds s x y = true ∧ s.format ≠ .indexed8 ∧ s.dlen.toNat < pixelOffset s x y + directBytes s.format ∧
      setPixel x y c s = .raised .accessFault s) ∨
    (inBounds s x y = true ∧ s.format ≠ .indexed8 ∧ pixelOffset s x y + directBytes s.format ≤ s.dlen.toNat ∧
      setPixel x y c s =
        .done (setPmem (memWriteBytes s.pmem (pixelOffset s x y) (pixelBytes s.format c)) s)) := by
  cases hb : inBounds s x y with
  | false => exact .inl ⟨rfl, setPixel_out hb⟩
  | true =>
    right
    by_cases hf : s.format = .indexed8
    · exact .inl ⟨rfl, hf, setPixel_indexed hb hf⟩
    · right
      rw [setPixel_direct hb hf]
      by_cases hd : s.dlen.toNat < pixelOffset s x y + directBytes s.format
      · exact .inl ⟨rfl, hf, hd, if_pos hd⟩
      · exact .inr ⟨rfl, hf, by omega, if_neg hd⟩

/-- A pixel just stored reads back as `storedColor` (R110 (a), (b)). -/
theorem getPixel_after_write {s : State} {x y : Int} {c : Color} (hb : inBounds s x y = true)
    (hf : s.format ≠ .indexed8) (hd : pixelOffset s x y + directBytes s.format ≤ s.dlen.toNat) :
    getPixel (setPmem (memWriteBytes s.pmem (pixelOffset s x y) (pixelBytes s.format c)) s) x y =
      .ok (storedColor s.format c) := by
  obtain ⟨h0, h1, h2, h3⟩ := memRead_pixelBytes s.pmem (pixelOffset s x y) s.format c
  rw [getPixel_direct (by simpa using hb) (by simpa using hf), directRead_ok (by simpa using hd)]
  simp only [pixelOffset_setPmem, setPmem_pmem, setPmem_format, h0, h1, h2]
  by_cases ha : formatAlpha s.format = true
  · simp [storedColor, ha, h3 ha]
  · simp [storedColor, ha]

/-! ## Blending -/

/-- `Blend` out of bounds or with ratio 0 (R107). -/
theorem blend_out {s : State} {x y : Int} {c : Color} {r : ℚ} (h : inBounds s x y = false) :
    blend x y c r s = .done s := by simp [blend, h]

theorem blend_zero (s : State) (x y : Int) (c : Color) : blend x y c 0 s = .done s := by
  unfold blend; split <;> simp

/-- `Blend` in bounds with a non-zero ratio (R107). -/
theorem blend_active {s : State} {x y : Int} {c : Color} {r : ℚ} (h : inBounds s x y = true) (hr : r ≠ 0) :
    blend x y c r s =
      match getPixel s x y with
      | .error e => .raised e s
      | .ok old => setPixel x y (mixColor old c r) s := by
  unfold blend
  exact (if_pos h).trans (if_neg hr)

/-- `Blend` in bounds of a direct format, with a non-zero ratio and bytes inside the buffer (R107). -/
theorem blend_direct {s : State} {x y : Int} {c old : Color} {r : ℚ} (hb : inBounds s x y = true) (hr : r ≠ 0)
    (hf : s.format ≠ .indexed8) (hd : pixelOffset s x y + directBytes s.format ≤ s.dlen.toNat)
    (ho : getPixel s x y = .ok old) :
    blend x y c r s =
      .done
        (setPmem (memWriteBytes s.pmem (pixelOffset s x y) (pixelBytes s.format (mixColor old c r))) s) := by
  rw [blend_active hb hr, ho]
  simp only
  rw [setPixel_direct hb hf, if_neg (by omega)]

/-- Everything `Blend` can do: nothing, a fault of its read or write with nothing written, or the write of the mixed
colour. -/
theorem blend_cases (s : State) (x y : Int) (c : Color) (r : ℚ) :
    ((inBounds s x y = false ∨ r = 0) ∧ blend x y c r s = .done s) ∨
    (inBounds s x y = true ∧ r ≠ 0 ∧
      ((s.format = .indexed8 ∧
          ∃ e, (e = .indexedWriteTarget ∨ e = .paletteLookup ∨
              (e = .accessFault ∧ s.dlen.toNat < pixelOffset s x y + 1)) ∧
            blend x y c r s = .raised e s) ∨
        (s.format ≠ .indexed8 ∧ s.dlen.toNat < pixelOffset s x y + directBytes s.format ∧
          blend x y c r s = .raised .accessFault s) ∨
        (s.format ≠ .indexed8 ∧ pixelOffset s x y + directBytes s.format ≤ s.dlen.toNat ∧
          ∃ old, getPixel s x y = .ok old ∧
            blend x y c r s =
              .done
                (setPmem (memWriteBytes s.pmem (pixelOffset s x y) (pixelBytes s.format (mixColor old c r))) s)))) := by
  cases hb : inBounds s x y with
  | false => exact .inl ⟨.inl rfl, blend_out hb⟩
  | true =>
    by_cases hr : r = 0
    · subst hr; exact .inl ⟨.inr rfl, blend_zero _ _ _ _⟩
    · refine .inr ⟨rfl, hr, ?_⟩
      by_cases hf : s.format = .indexed8
      · left
        refine ⟨hf, ?_⟩
        rw [blend_active hb hr]
        cases hg : getPixel s x y with
        | ok old => exact ⟨_, .inl rfl, by simp only; exact setPixel_indexed hb hf⟩
        | error e =>
          obtain ⟨-, ⟨rfl, hlt⟩ | ⟨rfl, -⟩⟩ := getPixel_error hg
          · exact ⟨_, .inr (.inr ⟨rfl, by simpa [hf] using hlt⟩), rfl⟩
          · exact ⟨_, .inr (.inl rfl), rfl⟩
      · right
        by_cases hd : s.dlen.toNat < pixelOffset s x y + directBytes s.format
        · left
          refine ⟨hf, hd, ?_⟩
          rw [blend_active hb hr, getPixel_direct hb hf, directRead, if_pos hd]
        · right
          refine ⟨hf, by omega, _, (getPixel_direct hb hf).trans (directRead_ok (by omega)), ?_⟩
          exact blend_direct hb hr hf (by omega) ((getPixel_direct hb hf).trans (directRead_ok (by omega)))

end Sys2Proof.Machine
end

