-- ==== Sys2Proof/Laws/Draw.lean ====
section
/-!
SUPPORT. What a run of pixel accesses can do. `Written s m` says that `m` comes from the PMEM of `s` by stores of in-bounds
pixels that pass the access check; the lemmas say that every run leaves such a memory, which faults it can raise, and, on a
well-formed buffer of a direct format, that it completes and what each pixel then reads as.
-/

namespace Sys2Proof.Machine

/-- `m` comes from the PMEM of `s` by stores of in-bounds pixels inside the buffer. -/
inductive Written (s : State) : Memory → Prop where
  | none : Written s s.pmem
  | store {m : Memory} (x y : Int) (c : Color) : Written s m → inBounds s x y = true → s.format ≠ .indexed8 →
      pixelOffset s x y + directBytes s.format ≤ s.dlen.toNat →
      Written s (memWriteBytes m (pixelOffset s x y) (pixelBytes s.format c))

/-- Stores after stores. -/
theorem Written.trans {s : State} {m m' : Memory} (h : Written s m) (h' : Written (setPmem m s) m') : Written s m' := by
  induction h' with
  | none => exact h
  | store x y c _ hb hf hd ih => exact ih.store x y c hb hf hd

/-- Stores keep the canonical form. -/
theorem Written.memWf {s : State} {m : Memory} (h : Written s m) (hm : memWf s.pmem) : memWf m := by
  induction h with
  | none => exact hm
  | store x y c _ _ _ _ ih => exact memWf_memWriteBytes ih _ _

/-- Every cell a store lists was there or lies inside the buffer. -/
theorem Written.mem {s : State} {m : Memory} (h : Written s m) {c : Host.Cell} (hc : c ∈ m) :
    c ∈ s.pmem ∨ c.1 < s.dlen.toNat := by
  induction h with
  | none => exact .inl hc
  | store x y col _ _ _ hd ih =>
    rcases mem_memWriteBytes hc with hc | ⟨-, hc⟩
    · exact ih hc
    · rw [length_pixelBytes] at hc; exact .inr (by omega)

/-- Stores leave alone every byte that is no accessed byte of an in-bounds pixel (R42). -/
theorem Written.read_of_padding {s : State} {m : Memory} (h : Written s m) {a : Nat}
    (ha : ∀ x y, inBounds s x y = true → ¬ PixelByte s x y a) : memRead m a = memRead s.pmem a := by
  induction h with
  | none => rfl
  | store x y c _ hb _ _ ih =>
    have := ha x y hb
    rw [memRead_memWriteBytes_of_outside, ih]
    rw [length_pixelBytes]
    unfold PixelByte at this
    omega

/-- On an Indexed8 buffer there is no store (R105). -/
theorem Written.eq_of_indexed {s : State} {m : Memory} (h : Written s m) (hf : s.format = .indexed8) : m = s.pmem := by
  cases h with
  | none => rfl
  | store x y c _ _ hd _ => exact absurd hf hd

/-! ## What one access does -/

/-- `SetPixel` leaves a written memory and raises `IndexedWriteTarget` or `AccessFault` with nothing written. -/
theorem setPixel_effect (s : State) (x y : Int) (c : Color) :
    (∃ m, Written s m ∧ setPixel x y c s = .done (setPmem m s)) ∨
    (s.format = .indexed8 ∧ setPixel x y c s = .raised .indexedWriteTarget s) ∨
    (s.format ≠ .indexed8 ∧ s.dlen.toNat < pixelOffset s x y + directBytes s.format ∧ inBounds s x y = true ∧
      setPixel x y c s = .raised .accessFault s) := by
  rcases setPixel_cases s x y c with ⟨-, h⟩ | ⟨-, hf, h⟩ | ⟨hb, hf, hd, h⟩ | ⟨hb, hf, hd, h⟩
  · exact .inl ⟨_, .none, h⟩
  · exact .inr (.inl ⟨hf, h⟩)
  · exact .inr (.inr ⟨hf, hd, hb, h⟩)
  · exact .inl ⟨_, .store x y c .none hb hf hd, h⟩

/-- `Blend` leaves a written memory, or raises a fault with nothing written: on an Indexed8 buffer `IndexedWriteTarget`,
`PaletteLookup` or `AccessFault`, on a direct one `AccessFault`. -/
theorem blend_effect (s : State) (x y : Int) (c : Color) (r : ℚ) :
    (∃ m, Written s m ∧ blend x y c r s = .done (setPmem m s)) ∨
    (s.format = .indexed8 ∧ ∃ e, (e = .indexedWriteTarget ∨ e = .paletteLookup ∨
        (e = .accessFault ∧ s.dlen.toNat < pixelOffset s x y + 1 ∧ inBounds s x y = true)) ∧
      blend x y c r s = .raised e s) ∨
    (s.format ≠ .indexed8 ∧ s.dlen.toNat < pixelOffset s x y + directBytes s.format ∧ inBounds s x y = true ∧
      blend x y c r s = .raised .accessFault s) := by
  rcases blend_cases s x y c r with ⟨-, h⟩ | ⟨hb, -, ⟨hf, e, he, h⟩ | ⟨hf, hd, h⟩ | ⟨hf, hd, old, -, h⟩⟩
  · exact .inl ⟨_, .none, h⟩
  · refine .inr (.inl ⟨hf, e, ?_, h⟩)
    rcases he with he | he | ⟨he, hlt⟩
    · exact .inl he
    · exact .inr (.inl he)
    · exact .inr (.inr ⟨he, hlt, hb⟩)
  · exact .inr (.inr ⟨hf, hd, hb, h⟩)
  · exact .inl ⟨_, .store x y _ .none hb hf hd, h⟩

/-! ## What a run does -/

/-- Everything a run of `SetPixel` can do. -/
theorem setAll_effect (c : Color) (ps : List (Int × Int)) (s : State) :
    (∃ m, Written s m ∧ setAll c ps s = .done (setPmem m s)) ∨
    (s.format = .indexed8 ∧ setAll c ps s = .raised .indexedWriteTarget s) ∨
    (s.format ≠ .indexed8 ∧ (∃ x y, inBounds s x y = true ∧ s.dlen.toNat < pixelOffset s x y + directBytes s.format) ∧
      ∃ m, Written s m ∧ setAll c ps s = .raised .accessFault (setPmem m s)) := by
  induction ps generalizing s with
  | nil => exact .inl ⟨_, .none, rfl⟩
  | cons p ps ih =>
    unfold setAll
    rcases setPixel_effect s p.1 p.2 c with ⟨m, hm, h⟩ | ⟨hf, h⟩ | ⟨hf, hd, hb, h⟩ <;> rw [h]
    · simp only [andThen_done]
      rcases ih (setPmem m s) with ⟨m', hm', h'⟩ | ⟨hf, h'⟩ | ⟨hf, ⟨x, y, hx⟩, m', hm', h'⟩ <;> rw [h']
      · exact .inl ⟨m', hm.trans hm', by simp⟩
      · refine .inr (.inl ⟨hf, ?_⟩)
        rw [hm.eq_of_indexed hf, setPmem_self]
      · exact .inr (.inr ⟨hf, ⟨x, y, hx⟩, m', hm.trans hm', by simp⟩)
    · exact .inr (.inl ⟨hf, rfl⟩)
    · exact .inr (.inr ⟨hf, ⟨_, _, hb, hd⟩, _, .none, rfl⟩)

/-- Everything a run of `Blend` can do. -/
theorem blendAll_effect (c : Color) (ps : List Splat) (s : State) :
    (∃ m, Written s m ∧ blendAll c ps s = .done (setPmem m s)) ∨
    (s.format = .indexed8 ∧ ∃ e, (e = .indexedWriteTarget ∨ e = .paletteLookup ∨
        (e = .accessFault ∧ ∃ x y, inBounds s x y = true ∧ s.dlen.toNat < pixelOffset s x y + 1)) ∧
      blendAll c ps s = .raised e s) ∨
    (s.format ≠ .indexed8 ∧ (∃ x y, inBounds s x y = true ∧ s.dlen.toNat < pixelOffset s x y + directBytes s.format) ∧
      ∃ m, Written s m ∧ blendAll c ps s = .raised .accessFault (setPmem m s)) := by
  induction ps generalizing s with
  | nil => exact .inl ⟨_, .none, rfl⟩
  | cons p ps ih =>
    unfold blendAll
    rcases blend_effect s p.x p.y c p.w with ⟨m, hm, h⟩ | ⟨hf, e, he, h⟩ | ⟨hf, hd, hb, h⟩ <;> rw [h]
    · simp only [andThen_done]
      rcases ih (setPmem m s) with ⟨m', hm', h'⟩ | ⟨hf, e, he, h'⟩ | ⟨hf, ⟨x, y, hx⟩, m', hm', h'⟩ <;> rw [h']
      · exact .inl ⟨m', hm.trans hm', by simp⟩
      · refine .inr (.inl ⟨hf, e, he, ?_⟩)
        rw [hm.eq_of_indexed hf, setPmem_self]
      · exact .inr (.inr ⟨hf, ⟨x, y, hx⟩, m', hm.trans hm', by simp⟩)
    · refine .inr (.inl ⟨hf, e, ?_, rfl⟩)
      rcases he with he | he | ⟨he, hlt, hb⟩
      · exact .inl he
      · exact .inr (.inl he)
      · exact .inr (.inr ⟨he, _, _, hb, hlt⟩)
    · exact .inr (.inr ⟨hf, ⟨_, _, hb, hd⟩, _, .none, rfl⟩)

/-! ## Runs on a well-formed buffer of a direct format -/

/-- A well-formed buffer stays one whatever its bytes are. -/
theorem DirectBuffer.setPmem {s : State} (h : DirectBuffer s) (m : Memory) : DirectBuffer (setPmem m s) := h

/-- A store changes no other pixel of a well-formed buffer (R110 (e)). -/
theorem getPixel_after_other_write {s : State} (h : DirectBuffer s) {x y x' y' : Int} {c : Color}
    (hb : inBounds s x y = true) (hne : x' ≠ x ∨ y' ≠ y) :
    getPixel (setPmem (memWriteBytes s.pmem (pixelOffset s x y) (pixelBytes s.format c)) s) x' y' = getPixel s x' y' := by
  refine getPixel_congr h.2 fun hb' a ha => memRead_memWriteBytes_of_outside ?_
  rw [length_pixelBytes]
  have := pixels_disjoint h.1 hb hb' (by rcases hne with hne | hne <;> [left; right] <;> exact hne.symm)
  have := directBytes_le_formatBytes h.2
  obtain ⟨ha1, ha2⟩ := ha
  omega

/-- A run of `SetPixel` on a well-formed buffer of a direct format completes; the in-bounds pixels on the list read as the
colour, the others as before, and no byte outside those pixels changes. -/
theorem setAll_direct (c : Color) (ps : List (Int × Int)) {s : State} (h : DirectBuffer s) :
    ∃ m, setAll c ps s = .done (setPmem m s) ∧
      (∀ x y, inBounds s x y = true →
        getPixel (setPmem m s) x y = if (x, y) ∈ ps then .ok (storedColor s.format c) else getPixel s x y) ∧
      (∀ a, (∀ p ∈ ps, inBounds s p.1 p.2 = true → ¬ PixelByte s p.1 p.2 a) → memRead m a = memRead s.pmem a) := by
  induction ps generalizing s with
  | nil => exact ⟨s.pmem, by simp [setAll], by simp, by simp⟩
  | cons p ps ih =>
    obtain ⟨px, py⟩ := p
    unfold setAll
    cases hb : inBounds s px py with
    | false =>
      rw [setPixel_out hb, andThen_done]
      obtain ⟨m, hm, himg, hfr⟩ := ih h
      refine ⟨m, hm, fun x y hxy => ?_, fun a ha => hfr a fun p hp => ha p (List.mem_cons_of_mem _ hp)⟩
      have hne : (x, y) ≠ (px, py) := by rintro ⟨⟩; rw [hb] at hxy; cases hxy
      simp [himg x y hxy, hne]
    | true =>
      have hd := direct_access_ok h hb
      rw [setPixel_direct hb h.2, if_neg (by omega), andThen_done]
      obtain ⟨m, hm, himg, hfr⟩ := ih (h.setPmem _)
      refine ⟨m, by simpa using hm, fun x y hxy => ?_, fun a ha => ?_⟩
      · have := himg x y (by simpa using hxy)
        rw [setPmem_setPmem, setPmem_format] at this
        rw [this]
        by_cases hmem : (x, y) ∈ ps
        · simp [hmem]
        · by_cases he : (x, y) = (px, py)
          · obtain ⟨rfl, rfl⟩ := Prod.mk.injEq .. ▸ he
            simp [hmem, getPixel_after_write hb h.2 hd]
          · have : x ≠ px ∨ y ≠ py := by
              by_contra hc; push Not at hc; exact he (by rw [hc.1, hc.2])
            simp [hmem, he, getPixel_after_other_write h hb this]
      · rw [hfr a fun p hp => ha p (List.mem_cons_of_mem _ hp), setPmem_pmem]
        refine memRead_memWriteBytes_of_outside ?_
        have := ha (px, py) List.mem_cons_self hb
        unfold PixelByte at this
        rw [length_pixelBytes]
        simp only at this
        omega

/-- A colour read from a direct format is a stored colour of it. -/
theorem storedColor_read {s : State} {x y : Int} {old : Color} (hb : inBounds s x y = true) (hf : s.format ≠ .indexed8)
    (ho : getPixel s x y = .ok old) : storedColor s.format old = old := by
  rw [getPixel_direct hb hf, directRead] at ho
  split at ho
  · cases ho
  · cases ho
    by_cases ha : formatAlpha s.format = true <;> simp [storedColor, ha]

/-- Blending gives a stored colour of every format. -/
theorem storedColor_mixColor (f : PixelFormat) (old c : Color) (r : ℚ) :
    storedColor f (mixColor old c r) = mixColor old c r := by
  cases f <;> rfl

/-- A run of `Blend` on a well-formed buffer of a direct format completes; each in-bounds pixel goes through the blends the
list makes on it, and no byte outside the in-bounds pixels with a non-zero weight changes. -/
theorem blendAll_direct (c : Color) (ps : List Splat) {s : State} (h : DirectBuffer s) :
    ∃ m, blendAll c ps s = .done (setPmem m s) ∧
      (∀ x y old, inBounds s x y = true → getPixel s x y = .ok old →
        getPixel (setPmem m s) x y = .ok (blendedColor c x y ps old)) ∧
      (∀ a, (∀ p ∈ ps, p.w ≠ 0 → inBounds s p.x p.y = true → ¬ PixelByte s p.x p.y a) →
        memRead m a = memRead s.pmem a) := by
  induction ps generalizing s with
  | nil => exact ⟨s.pmem, by simp [blendAll], fun x y old _ ho => by simpa [blendedColor] using ho, by simp⟩
  | cons p ps ih =>
    unfold blendAll
    rcases blend_cases s p.x p.y c p.w with ⟨hno, hbl⟩ | ⟨hb, hw, ⟨hf, -⟩ | ⟨-, hlt, -⟩ | ⟨-, hd, old₀, ho₀, hbl⟩⟩
    · rw [hbl, andThen_done]
      obtain ⟨m, hm, himg, hfr⟩ := ih h
      refine ⟨m, hm, fun x y old hxy ho => ?_, fun a ha => hfr a fun p hp => ha p (List.mem_cons_of_mem _ hp)⟩
      rw [blendedColor, if_neg, himg x y old hxy ho]
      rintro ⟨rfl, rfl, hw⟩
      rcases hno with hno | hno
      · rw [hno] at hxy; cases hxy
      · exact hw hno
    · exact absurd hf h.2
    · exact absurd hlt (by have := direct_access_ok h hb; omega)
    · rw [hbl, andThen_done]
      obtain ⟨m, hm, himg, hfr⟩ := ih (h.setPmem _)
      refine ⟨m, by simpa using hm, fun x y old hxy ho => ?_, fun a ha => ?_⟩
      · rw [blendedColor]
        by_cases he : p.x = x ∧ p.y = y
        · obtain ⟨rfl, rfl⟩ := he
          obtain rfl : old₀ = old := by rw [ho₀] at ho; cases ho; rfl
          rw [if_pos ⟨rfl, rfl, hw⟩, ← storedColor_mixColor s.format]
          have := himg p.x p.y _ (by simpa using hxy) (getPixel_after_write hb h.2 hd)
          rwa [setPmem_setPmem] at this
        · rw [if_neg (fun hc => he ⟨hc.1, hc.2.1⟩)]
          have hne : x ≠ p.x ∨ y ≠ p.y := by
            by_contra hc; push Not at hc; exact he ⟨hc.1.symm, hc.2.symm⟩
          have := himg x y old (by simpa using hxy) ((getPixel_after_other_write h hb hne).trans ho)
          rwa [setPmem_setPmem] at this
      · rw [hfr a fun p hp => ha p (List.mem_cons_of_mem _ hp), setPmem_pmem]
        refine memRead_memWriteBytes_of_outside ?_
        have := ha p List.mem_cons_self hw hb
        unfold PixelByte at this
        rw [length_pixelBytes]
        omega

end Sys2Proof.Machine
end

