-- ==== Sys2Proof/Laws/DrawBytes.lean ====
section
/-!
SUPPORT. What a run of pixel accesses makes of each byte of PMEM, on every buffer of a direct format, well-formed or not: a
run whose in-bounds accesses pass the check of R34 completes with the bytes `storedByte` or `blendedByte` gives, one whose
first failing access is known raises `AccessFault` there, and a run of any kind leaves the bytes outside its pixels alone.
-/

namespace Sys2Proof.Machine

/-- A byte after the store of one pixel (R31, R104). -/
theorem memRead_store (m : Memory) (o a : Nat) (f : PixelFormat) (c : Color) :
    memRead (memWriteBytes m o (pixelBytes f c)) a =
      if o ≤ a ∧ a < o + directBytes f then colorByte c (a - o) else memRead m a := by
  split
  · next h =>
    obtain ⟨j, rfl⟩ := Nat.exists_eq_add_of_le h.1
    obtain ⟨h0, h1, h2, h3⟩ := memRead_pixelBytes m o f c
    have hj : j < directBytes f := by omega
    rw [Nat.add_sub_cancel_left]
    match j, hj with
    | 0, _ => exact h0
    | 1, _ => exact h1
    | 2, _ => exact h2
    | 3, hj => exact h3 (by cases f <;> first | rfl | exact absurd hj (by decide))
    | j + 4, hj => exact absurd hj (by cases f <;> simp [directBytes, formatAlpha])
  · next h => exact memRead_memWriteBytes_of_outside (by rw [length_pixelBytes]; omega)

/-! ## Runs of `SetPixel` -/

/-- The geometry of the stores does not depend on the contents of PMEM. -/
@[simp] theorem storedByte_setPmem (s : State) (m : Memory) (c : Color) (a : Nat) (ps : List (Int × Int)) (old : Byte) :
    storedByte (setPmem m s) c a ps old = storedByte s c a ps old := by
  induction ps generalizing old with
  | nil => rfl
  | cons p ps ih => exact ih _

/-- A byte that no stored pixel contains keeps its value. -/
theorem storedByte_of_untouched {s : State} {c : Color} {a : Nat} {ps : List (Int × Int)} (old : Byte)
    (h : ∀ p ∈ ps, inBounds s p.1 p.2 = true → ¬ PixelByte s p.1 p.2 a) : storedByte s c a ps old = old := by
  induction ps with
  | nil => rfl
  | cons p ps ih =>
    rw [storedByte, if_neg fun hp => h p List.mem_cons_self hp.1 hp.2]
    exact ih fun q hq => h q (List.mem_cons_of_mem _ hq)

theorem setAll_append (c : Color) (ps qs : List (Int × Int)) (s : State) :
    setAll c (ps ++ qs) s = (setAll c ps s).andThen (setAll c qs) := by
  induction ps generalizing s with
  | nil => rfl
  | cons p ps ih =>
    simp only [List.cons_append, setAll]
    cases setPixel p.1 p.2 c s with
    | done t => exact ih t
    | raised e t => rfl

/-- A run of `SetPixel` on a direct format whose in-bounds pixels pass the access check completes, and what each byte then
holds. -/
theorem setAll_bytes (c : Color) (ps : List (Int × Int)) {s : State} (hf : s.format ≠ .indexed8)
    (h : ∀ p ∈ ps, inBounds s p.1 p.2 = true → PixelFits s p.1 p.2) :
    ∃ m, setAll c ps s = .done (setPmem m s) ∧ ∀ a, memRead m a = storedByte s c a ps (memRead s.pmem a) := by
  induction ps generalizing s with
  | nil => exact ⟨s.pmem, rfl, fun _ => rfl⟩
  | cons p ps ih =>
    have hps := fun q hq => h q (List.mem_cons_of_mem _ hq)
    unfold setAll
    rcases setPixel_cases s p.1 p.2 c with ⟨hb, hr⟩ | ⟨-, hi, -⟩ | ⟨hb, -, hd, -⟩ | ⟨hb, -, -, hr⟩
    · obtain ⟨m, hm, hbytes⟩ := ih hf hps
      exact ⟨m, by rw [hr, andThen_done, hm], fun a => by rw [hbytes, storedByte, if_neg (by simp [hb])]⟩
    · exact absurd hi hf
    · have : PixelFits s p.1 p.2 := h p List.mem_cons_self hb
      exact absurd hd (Nat.not_lt.mpr this)
    · rw [hr, andThen_done]
      obtain ⟨m, hm, hbytes⟩ := ih (s := setPmem (memWriteBytes s.pmem _ _) s) hf hps
      exact ⟨m, hm, fun a => by rw [hbytes, storedByte_setPmem, setPmem_pmem, memRead_store, storedByte]; simp [hb]⟩

/-- A run of `SetPixel` on a direct format raises `AccessFault` at the first in-bounds pixel that fails the access check,
with the bytes of the pixels before it stored. -/
theorem setAll_stops (c : Color) {pre post : List (Int × Int)} {x y : Int} {s : State} (hf : s.format ≠ .indexed8)
    (h : ∀ p ∈ pre, inBounds s p.1 p.2 = true → PixelFits s p.1 p.2) (hb : inBounds s x y = true)
    (hd : s.dlen.toNat < pixelOffset s x y + directBytes s.format) :
    ∃ m, setAll c (pre ++ (x, y) :: post) s = .raised .accessFault (setPmem m s) ∧
      ∀ a, memRead m a = storedByte s c a pre (memRead s.pmem a) := by
  obtain ⟨m, hm, hbytes⟩ := setAll_bytes c pre hf h
  refine ⟨m, ?_, hbytes⟩
  have hs : setPixel x y c (setPmem m s) = .raised .accessFault (setPmem m s) :=
    (setPixel_direct (s := setPmem m s) hb hf).trans (if_pos hd)
  rw [setAll_append, hm, andThen_done, setAll, hs, andThen_raised]

/-- A run of `SetPixel`, faulting or not, leaves the bytes outside its in-bounds pixels alone. -/
theorem setAll_frame (c : Color) {ps : List (Int × Int)} {s : State} {a : Nat}
    (h : ∀ p ∈ ps, inBounds s p.1 p.2 = true → ¬ PixelByte s p.1 p.2 a) :
    memRead (setAll c ps s).state.pmem a = memRead s.pmem a := by
  induction ps generalizing s with
  | nil => rfl
  | cons p ps ih =>
    have hps := fun q hq => h q (List.mem_cons_of_mem _ hq)
    unfold setAll
    rcases setPixel_cases s p.1 p.2 c with ⟨-, hr⟩ | ⟨-, -, hr⟩ | ⟨-, -, -, hr⟩ | ⟨hb, -, -, hr⟩ <;> rw [hr]
    · exact ih hps
    · rfl
    · rfl
    · rw [andThen_done, ih (s := setPmem (memWriteBytes s.pmem _ _) s) hps, setPmem_pmem, memRead_store,
        if_neg (h p List.mem_cons_self hb)]

/-! ## Runs of `Blend` -/

/-- The geometry of the blends does not depend on the contents of PMEM. -/
@[simp] theorem blendedByte_setPmem (s : State) (m : Memory) (c : Color) (a : Nat) (ps : List Splat) (old : Byte) :
    blendedByte (setPmem m s) c a ps old = blendedByte s c a ps old := by
  induction ps generalizing old with
  | nil => rfl
  | cons p ps ih => exact ih _

/-- A byte that no blended pixel contains keeps its value. -/
theorem blendedByte_of_untouched {s : State} {c : Color} {a : Nat} {ps : List Splat} (old : Byte)
    (h : ∀ p ∈ ps, p.w ≠ 0 → inBounds s p.x p.y = true → ¬ PixelByte s p.x p.y a) : blendedByte s c a ps old = old := by
  induction ps with
  | nil => rfl
  | cons p ps ih =>
    rw [blendedByte, if_neg fun hp => h p List.mem_cons_self hp.1 hp.2.1 hp.2.2]
    exact ih fun q hq => h q (List.mem_cons_of_mem _ hq)

theorem blendAll_append (c : Color) (ps qs : List Splat) (s : State) :
    blendAll c (ps ++ qs) s = (blendAll c ps s).andThen (blendAll c qs) := by
  induction ps generalizing s with
  | nil => rfl
  | cons p ps ih =>
    simp only [List.cons_append, blendAll]
    cases blend p.x p.y c p.w s with
    | done t => exact ih t
    | raised e t => rfl

/-- The byte at offset `j` of the mixed colour: B, G, R mixed, A 255 (R107). -/
theorem colorByte_mixColor (old c : Color) (r : ℚ) (j : Nat) :
    colorByte (mixColor old c r) j = if j < 3 then mix (colorByte old j) (colorByte c j) r else 255 := by
  match j with
  | 0 => rfl
  | 1 => rfl
  | 2 => rfl
  | j + 3 => rw [if_neg (by omega)]; rfl

/-- The B, G and R bytes of a colour read from a direct format are the pixel's (R102). -/
theorem colorByte_of_read {s : State} {x y : Int} {old : Color} (hb : inBounds s x y = true) (hf : s.format ≠ .indexed8)
    (ho : getPixel s x y = .ok old) {j : Nat} (hj : j < 3) : colorByte old j = memRead s.pmem (pixelOffset s x y + j) := by
  rw [getPixel_direct hb hf, directRead] at ho
  split at ho
  · cases ho
  · cases ho
    match j, hj with
    | 0, _ => rfl
    | 1, _ => rfl
    | 2, _ => rfl

/-- A run of `Blend` whose in-bounds pixels with a non-zero weight are of a direct format and pass the access check
completes, and what each byte then holds. -/
theorem blendAll_bytes (c : Color) (ps : List Splat) {s : State}
    (h : ∀ p ∈ ps, p.w ≠ 0 → inBounds s p.x p.y = true → s.format ≠ .indexed8 ∧ PixelFits s p.x p.y) :
    ∃ m, blendAll c ps s = .done (setPmem m s) ∧ ∀ a, memRead m a = blendedByte s c a ps (memRead s.pmem a) := by
  induction ps generalizing s with
  | nil => exact ⟨s.pmem, rfl, fun _ => rfl⟩
  | cons p ps ih =>
    have hps := fun q hq => h q (List.mem_cons_of_mem _ hq)
    unfold blendAll
    rcases blend_cases s p.x p.y c p.w with ⟨hno, hr⟩ | ⟨hb, hw, ⟨hi, -⟩ | ⟨-, hd, -⟩ | ⟨hf, -, old, ho, hr⟩⟩
    · obtain ⟨m, hm, hbytes⟩ := ih hps
      refine ⟨m, by rw [hr, andThen_done, hm], fun a => ?_⟩
      rw [hbytes, blendedByte, if_neg]
      rintro ⟨hw, hb, -⟩
      rcases hno with hno | hno
      · rw [hno] at hb; cases hb
      · exact hw hno
    · exact absurd hi (h p List.mem_cons_self hw hb).1
    · have : PixelFits s p.x p.y := (h p List.mem_cons_self hw hb).2
      exact absurd hd (Nat.not_lt.mpr this)
    · rw [hr, andThen_done]
      obtain ⟨m, hm, hbytes⟩ := ih (s := setPmem (memWriteBytes s.pmem _ _) s) hps
      refine ⟨m, hm, fun a => ?_⟩
      rw [hbytes, blendedByte_setPmem, setPmem_pmem, memRead_store, blendedByte]
      by_cases ha : PixelByte s p.x p.y a
      · rw [if_pos ha, if_pos ⟨hw, hb, ha⟩, colorByte_mixColor]
        split
        · next hj => rw [colorByte_of_read hb hf ho hj, Nat.add_sub_cancel' ha.1]
        · rfl
      · rw [if_neg ha, if_neg fun hp => ha hp.2.2]

/-- A run of `Blend` raises `AccessFault` at the first in-bounds pixel with a non-zero weight that fails the access check of
its read, with the bytes of the pixels before it blended. -/
theorem blendAll_stops (c : Color) {pre post : List Splat} {p : Splat} {s : State}
    (h : ∀ q ∈ pre, q.w ≠ 0 → inBounds s q.x q.y = true → s.format ≠ .indexed8 ∧ PixelFits s q.x q.y) (hw : p.w ≠ 0)
    (hb : inBounds s p.x p.y = true)
    (hd : s.dlen.toNat < pixelOffset s p.x p.y + (if s.format = .indexed8 then 1 else directBytes s.format)) :
    ∃ m, blendAll c (pre ++ p :: post) s = .raised .accessFault (setPmem m s) ∧
      ∀ a, memRead m a = blendedByte s c a pre (memRead s.pmem a) := by
  obtain ⟨m, hm, hbytes⟩ := blendAll_bytes c pre h
  refine ⟨m, ?_, hbytes⟩
  have hb' : inBounds (setPmem m s) p.x p.y = true := hb
  have hg : getPixel (setPmem m s) p.x p.y = .error .accessFault := by
    by_cases hf : s.format = .indexed8
    · rw [if_pos hf] at hd
      exact (getPixel_indexed hb' hf).trans (if_pos hd)
    · rw [if_neg hf] at hd
      exact (getPixel_direct hb' hf).trans (if_pos hd)
  rw [blendAll_append, hm, andThen_done, blendAll, blend_active hb' hw, hg, andThen_raised]

/-- A run of `Blend`, faulting or not, leaves the bytes outside its in-bounds pixels with a non-zero weight alone. -/
theorem blendAll_frame (c : Color) {ps : List Splat} {s : State} {a : Nat}
    (h : ∀ p ∈ ps, p.w ≠ 0 → inBounds s p.x p.y = true → ¬ PixelByte s p.x p.y a) :
    memRead (blendAll c ps s).state.pmem a = memRead s.pmem a := by
  induction ps generalizing s with
  | nil => rfl
  | cons p ps ih =>
    have hps := fun q hq => h q (List.mem_cons_of_mem _ hq)
    unfold blendAll
    rcases blend_cases s p.x p.y c p.w with
      ⟨-, hr⟩ | ⟨hb, hw, ⟨-, e, -, hr⟩ | ⟨-, -, hr⟩ | ⟨-, -, old, -, hr⟩⟩ <;> rw [hr]
    · exact ih hps
    · rfl
    · rfl
    · rw [andThen_done, ih (s := setPmem (memWriteBytes s.pmem _ _) s) hps, setPmem_pmem, memRead_store,
        if_neg (h p List.mem_cons_self hw hb)]

/-- A blend that accesses no pixel does nothing (R107). -/
theorem blend_of_not_accesses {s : State} {p : Splat} (c : Color) (h : accesses s p = false) :
    blend p.x p.y c p.w s = .done s := by
  rcases Bool.and_eq_false_iff.mp h with hw | hb
  · rw [of_not_not (of_decide_eq_false hw), blend_zero]
  · exact blend_out hb

/-- A run of blends that access no pixel does nothing. -/
theorem blendAll_of_not_accesses (c : Color) {ps : List Splat} {s : State} (h : ∀ p ∈ ps, accesses s p = false) :
    blendAll c ps s = .done s := by
  induction ps with
  | nil => rfl
  | cons p ps ih =>
    rw [blendAll, blend_of_not_accesses c (h p List.mem_cons_self), andThen_done]
    exact ih fun q hq => h q (List.mem_cons_of_mem _ hq)

/-- A run of `Blend` on an Indexed8 buffer ends at the first blend that accesses a pixel, with nothing written: in the fault
of its read, else in `IndexedWriteTarget` (R105, R164). -/
theorem blendAll_indexed (c : Color) {ps : List Splat} {p : Splat} {s : State} (hf : s.format = .indexed8)
    (h : ps.find? (accesses s) = some p) :
    blendAll c ps s =
      .raised
        (if s.dlen.toNat < pixelOffset s p.x p.y + 1 then .accessFault
        else if s.plen.toNat ≤ (memRead s.pmem (pixelOffset s p.x p.y)).toNat then .paletteLookup
        else .indexedWriteTarget) s := by
  obtain ⟨hp, pre, post, rfl, hpre⟩ := List.find?_eq_some_iff_append.mp h
  obtain ⟨hw, hb⟩ := Bool.and_eq_true_iff.mp hp
  rw [blendAll_append, blendAll_of_not_accesses c fun q hq => by simpa using hpre q hq, andThen_done, blendAll,
    blend_active hb (of_decide_eq_true hw), getPixel_indexed hb hf, paletteRead]
  by_cases hd : s.dlen.toNat < pixelOffset s p.x p.y + 1
  · simp only [hd, if_true, andThen_raised]
  · by_cases hi : s.plen.toNat ≤ (memRead s.pmem (pixelOffset s p.x p.y)).toNat
    · simp only [hd, hi, if_false, if_true, andThen_raised]
    · simp only [hd, hi, if_false, setPixel_indexed hb hf, andThen_raised]

/-! ## The draw commands -/

/-- The PMEM a command leaves is the one its body leaves: recording a fault writes no byte. -/
theorem pmem_of_outcome {r : Ran} {t : State} (h : r.outcome = .next t) : t.pmem = r.state.pmem := by
  cases r <;> cases h <;> rfl

/-- A blend with a non-zero weight is on the list of active pixels. -/
theorem mem_activePixels {ps : List Splat} {p : Splat} (hp : p ∈ ps) (hw : p.w ≠ 0) : (p.x, p.y) ∈ activePixels ps :=
  List.mem_map.mpr ⟨p, List.mem_filter.mpr ⟨hp, by simpa using hw⟩, rfl⟩

/-- A draw command, completing or faulting, leaves the bytes outside the in-bounds pixels of its list alone. -/
theorem exec_draw_frame {i : Instr} {s t : State} (hi : isDraw i = true) (h : exec i s = .next t) {a : Nat}
    (ha : ∀ p ∈ drawnPixels i, inBounds s p.1 p.2 = true → ¬ PixelByte s p.1 p.2 a) :
    memRead t.pmem a = memRead s.pmem a := by
  have hsplat (c : Color) (ps : List Splat)
      (ha : ∀ p ∈ activePixels ps, inBounds s p.1 p.2 = true → ¬ PixelByte s p.1 p.2 a) :
      memRead (needBuffer s (blendAll c ps)).state.pmem a = memRead s.pmem a := by
    unfold needBuffer
    split
    · exact blendAll_frame c fun p hp hw => ha _ (mem_activePixels hp hw)
    · rfl
  cases i with
  | drawbres x0 y0 x1 y1 color =>
    rw [pmem_of_outcome (r := needBuffer s _) h, needBuffer]
    split
    · split
      · rfl
      · exact setAll_frame _ ha
    · rfl
  | drawpoint x0 y0 color => rw [pmem_of_outcome (r := needBuffer s _) h]; exact hsplat _ _ ha
  | drawaaline x0 y0 x1 y1 color => rw [pmem_of_outcome (r := needBuffer s _) h]; exact hsplat _ _ ha
  | bpp | hasalpha | create | wrap | getpixel | setpixel | blendpixel => cases hi

end Sys2Proof.Machine
end

