-- ==== Sys2Proof/Laws/Exec.lean ====
section
/-!
SUPPORT. What a command can do, said once: `Effect i s t` lists every kind of next state `exec i s` can answer, and every
answer of `exec` is one of them. Whole-machine claims are case analyses of it.
-/

namespace Sys2Proof.Machine

/-- The kinds of next state a command can lead to. -/
inductive Effect (i : Instr) (s : State) : State → Prop where
  /-- A word is pushed on `OUT`. -/
  | push (v : Word) (h : pushesOut i = true) : Effect i s (outPush v s)
  /-- A CREATE completes (R82). -/
  | create {fmt : BitVec 8} {w h : Word} {f : PixelFormat} (hi : i = .create fmt w h)
      (hc : createChecks s.cfg fmt w h = .ok f) :
      Effect i s
        (bindBuffer f w h (BitVec.ofNat 32 (createStride f (u32 w))) (BitVec.ofNat 32 (createBytes f w h)) 0
          (setPmem (memZero s.pmem (createBytes f w h)) s))
  /-- A WRAP completes (R84). -/
  | wrap {fmt : BitVec 8} {plen : BitVec 9} {w h st len : Word} {pal data : List Word} {f : PixelFormat}
      (hi : i = .wrap fmt plen w h st len pal data) (hc : wrapChecks s.cfg fmt w h st len = .ok f) :
      Effect i s
        (bindBuffer f w h st len plen
          (setPmem (memLoad s.pmem (payloadBytes data (u32 len))) { s with pal := palLoad s.pal plen.toNat pal }))
  /-- Pixels are stored, possibly none. -/
  | store {m : Memory} (hi : isPixelCommand i = true) (hp : pushesOut i = false) (hb : s.bound = true)
      (hm : Written s m) : Effect i s (setPmem m s)
  /-- A fault other than `AccessFault`, with nothing else changed. -/
  | fault {e : ErrCode} (he : e ≠ .accessFault)
      (hu : e = .unsupportedFormat → ∃ fmt, formatOperand i = some fmt ∧ 4 ≤ fmt.toNat) : Effect i s (raise e s)
  /-- An `AccessFault`: an in-bounds pixel has bytes outside the buffer; a draw command may have stored pixels before. -/
  | access {m : Memory} (hi : isPixelCommand i = true) (hb : s.bound = true) (hm : Written s m)
      (hd : isDraw i = false → m = s.pmem)
      (hx : ∃ x y, inBounds s x y = true ∧
        s.dlen.toNat < pixelOffset s x y + (if s.format = .indexed8 then 1 else directBytes s.format)) :
      Effect i s (raise .accessFault (setPmem m s))

/-- The effect of a run of `SetPixel`. -/
theorem effect_of_setAll {i : Instr} {s : State} (hi : isPixelCommand i = true) (hp : pushesOut i = false)
    (hb : s.bound = true) (hd : isDraw i = true) (c : Color) (ps : List (Int × Int)) {t : State}
    (h : (setAll c ps s).outcome = .next t) : Effect i s t := by
  rcases setAll_effect c ps s with ⟨m, hm, hr⟩ | ⟨-, hr⟩ | ⟨hf, ⟨x, y, hx⟩, m, hm, hr⟩ <;> rw [hr] at h <;> cases h
  · exact .store hi hp hb hm
  · exact .fault (by decide) (fun h => by cases h)
  · exact .access hi hb hm (fun h => by rw [hd] at h; cases h) ⟨x, y, by simpa [hf] using hx⟩

/-- The effect of a run of `Blend`. -/
theorem effect_of_blendAll {i : Instr} {s : State} (hi : isPixelCommand i = true) (hp : pushesOut i = false)
    (hb : s.bound = true) (hd : isDraw i = true) (c : Color) (ps : List Splat) {t : State}
    (h : (blendAll c ps s).outcome = .next t) : Effect i s t := by
  rcases blendAll_effect c ps s with ⟨m, hm, hr⟩ | ⟨hf, e, he, hr⟩ | ⟨hf, ⟨x, y, hx⟩, m, hm, hr⟩ <;> rw [hr] at h <;>
    cases h
  · exact .store hi hp hb hm
  · rcases he with rfl | rfl | ⟨rfl, x, y, hx⟩
    · exact .fault (by decide) (fun h => by cases h)
    · exact .fault (by decide) (fun h => by cases h)
    · simpa using Effect.access hi hb .none (fun _ => rfl) ⟨x, y, by simpa [hf] using hx⟩
  · exact .access hi hb hm (fun h => by rw [hd] at h; cases h) ⟨x, y, by simpa [hf] using hx⟩

/-- A pixel command without a buffer raises `NoBuffer`, with one it runs its body (R158). -/
theorem effect_of_needBuffer {i : Instr} {s t : State} {k : State → Ran} (h : (needBuffer s k).outcome = .next t)
    (hk : s.bound = true → (k s).outcome = .next t → Effect i s t) : Effect i s t := by
  cases hb : s.bound with
  | false =>
    rw [needBuffer_unbound hb] at h; cases h
    exact .fault (by decide) (fun h => by cases h)
  | true => rw [needBuffer_bound hb] at h; exact hk hb h

/-- Every next state of a command is one of its effects. -/
theorem exec_effect {i : Instr} {s t : State} (h : exec i s = .next t) : Effect i s t := by
  cases i with
  | bpp fmt =>
    change (match bytesPerPixel fmt with
      | .error e => Ran.raised e s
      | .ok n => Ran.done (outPush (BitVec.ofNat 32 n) s)).outcome = .next t at h
    unfold bytesPerPixel at h
    rcases lookupFormat_cases fmt with ⟨f, hf, -⟩ | ⟨hf, hge⟩ <;> rw [hf] at h <;> cases h
    · exact .push _ rfl
    · exact .fault (by decide) (fun _ => ⟨fmt, rfl, hge⟩)
  | hasalpha fmt =>
    change (match hasAlpha fmt with
      | .error e => Ran.raised e s
      | .ok a => Ran.done (outPush (if a then 1 else 0) s)).outcome = .next t at h
    unfold hasAlpha at h
    rcases lookupFormat_cases fmt with ⟨f, hf, -⟩ | ⟨hf, hge⟩ <;> rw [hf] at h <;> cases h
    · exact .push _ rfl
    · exact .fault (by decide) (fun _ => ⟨fmt, rfl, hge⟩)
  | create fmt w hh =>
    simp only [exec, execCreate] at h
    cases hc : createChecks s.cfg fmt w hh with
    | ok f => rw [hc] at h; cases h; exact .create rfl hc
    | error e =>
      rw [hc] at h; cases h
      rcases createChecks_error hc with ⟨rfl, hge⟩ | rfl | rfl
      · exact .fault (by decide) (fun _ => ⟨fmt, rfl, hge⟩)
      · exact .fault (by decide) (fun h => by cases h)
      · exact .fault (by decide) (fun h => by cases h)
  | wrap fmt plen w hh st len pal data =>
    simp only [exec, execWrap] at h
    cases hc : wrapChecks s.cfg fmt w hh st len with
    | ok f => rw [hc] at h; cases h; exact .wrap rfl hc
    | error e =>
      rw [hc] at h; cases h
      rcases wrapChecks_error hc with ⟨rfl, hge⟩ | rfl | rfl | rfl
      · exact .fault (by decide) (fun _ => ⟨fmt, rfl, hge⟩)
      · exact .fault (by decide) (fun h => by cases h)
      · exact .fault (by decide) (fun h => by cases h)
      · exact .fault (by decide) (fun h => by cases h)
  | getpixel x y =>
    refine effect_of_needBuffer h fun hb h => ?_
    cases hg : getPixel s (s32 x) (s32 y) with
    | ok c => rw [hg] at h; cases h; exact .push _ rfl
    | error e =>
      rw [hg] at h; cases h
      obtain ⟨hin, ⟨rfl, hlt⟩ | ⟨rfl, -⟩⟩ := getPixel_error hg
      · exact Effect.access (m := s.pmem) rfl hb .none (fun _ => rfl) ⟨_, _, hin, hlt⟩
      · exact .fault (by decide) (fun h => by cases h)
  | setpixel x y color =>
    refine effect_of_needBuffer h fun hb h => ?_
    rcases setPixel_effect s (s32 x) (s32 y) (colorOf color) with ⟨m, hm, hr⟩ | ⟨-, hr⟩ | ⟨hf, hlt, hin, hr⟩ <;>
      rw [hr] at h <;> cases h
    · exact .store rfl rfl hb hm
    · exact .fault (by decide) (fun h => by cases h)
    · exact Effect.access (m := s.pmem) rfl hb .none (fun _ => rfl) ⟨_, _, hin, by simpa [hf] using hlt⟩
  | blendpixel x y color ratio =>
    refine effect_of_needBuffer h fun hb h => ?_
    rcases blend_effect s (s32 x) (s32 y) (colorOf color) (ratioOf ratio) with
      ⟨m, hm, hr⟩ | ⟨hf, e, he, hr⟩ | ⟨hf, hlt, hin, hr⟩ <;> rw [hr] at h <;> cases h
    · exact .store rfl rfl hb hm
    · rcases he with rfl | rfl | ⟨rfl, hlt, hin⟩
      · exact .fault (by decide) (fun h => by cases h)
      · exact .fault (by decide) (fun h => by cases h)
      · exact Effect.access (m := s.pmem) rfl hb .none (fun _ => rfl) ⟨_, _, hin, by simpa [hf] using hlt⟩
    · exact Effect.access (m := s.pmem) rfl hb .none (fun _ => rfl) ⟨_, _, hin, by simpa [hf] using hlt⟩
  | drawbres x0 y0 x1 y1 color =>
    refine effect_of_needBuffer h fun hb h => ?_
    split at h
    · cases h; exact .fault (by decide) (fun h => by cases h)
    · exact effect_of_setAll rfl rfl hb rfl _ _ h
  | drawpoint x0 y0 color =>
    exact effect_of_needBuffer h fun hb h => effect_of_blendAll rfl rfl hb rfl _ _ h
  | drawaaline x0 y0 x1 y1 color =>
    exact effect_of_needBuffer h fun hb h => effect_of_blendAll rfl rfl hb rfl _ _ h

/-! ## A step -/

/-- Everything a step of an unfaulted engine can lead to: `IllegalCommand` with nothing else changed, or what the packet at
`pos` leads to, retired (R6). -/
theorem step_cases {s t : State} (hf : s.fault = false) (h : step s = .next t) :
    t = raise .illegalCommand s ∨
      ∃ i n u, decode s.cfg (s.stream.drop s.pos) = .packet i n ∧ Effect i s u ∧ t = retire n u := by
  simp only [step, hf, Bool.false_eq_true, if_false, fetch, pending] at h
  cases hd : decode s.cfg (s.stream.drop s.pos) with
  | needMore => rw [hd] at h; cases h
  | illegal why => rw [hd] at h; cases h; exact .inl rfl
  | packet i n =>
    simp only [hd] at h
    cases he : exec i s with
    | next u => rw [he] at h; cases h; exact .inr ⟨i, n, u, rfl, exec_effect he, rfl⟩
    | fault _ => rw [he] at h; cases h
    | refused _ => rw [he] at h; cases h

end Sys2Proof.Machine
end

