-- ==== Sys2Proof/Laws/PerInstr.lean ====
section
/-!
SUPPORT. A statement made for every instruction, one lemma per constructor: the header of its encoding selects the row of the
opcode map that bears its opcode, and the encoding has at least the fixed words of that row (spec/30_encoding.md R52, R55).
-/

namespace Sys2Proof.Laws.HeaderRow

/-- The encoding of `i` begins with a header that selects the row of `i`'s opcode, and holds the row's fixed words. -/
def Statement (i : Instr) : Prop :=
  ∃ w0 ops row, encode i = w0 :: ops ∧ selectRow w0 = some row ∧ row.op = opcodeOf i ∧ row.words ≤ (encode i).length

theorem bpp (fmt : BitVec 8) : Statement (.bpp fmt) :=
  ⟨_, _, { op := .bpp, mask := 0xFFFF00FF#32, pattern := 0x00000001#32, words := 1 }, rfl,
    selectRow_fmt_header (opc := 0x01) (by decide) rfl rfl fmt, rfl, le_refl 1⟩

theorem hasalpha (fmt : BitVec 8) : Statement (.hasalpha fmt) :=
  ⟨_, _, { op := .hasalpha, mask := 0xFFFF00FF#32, pattern := 0x00000002#32, words := 1 }, rfl,
    selectRow_fmt_header (opc := 0x02) (by decide) rfl rfl fmt, rfl, le_refl 1⟩

theorem create (fmt : BitVec 8) (width height : Word) : Statement (.create fmt width height) :=
  ⟨_, _, { op := .create, mask := 0xFFFF00FF#32, pattern := 0x00000010#32, words := 3 }, rfl,
    selectRow_fmt_header (opc := 0x10) (by decide) rfl rfl fmt, rfl, le_refl 3⟩

theorem wrap (fmt : BitVec 8) (plen : BitVec 9) (width height stride len : Word) (pal data : List Word) :
    Statement (.wrap fmt plen width height stride len pal data) :=
  ⟨_, _, { op := .wrap, mask := 0xFE0000FF#32, pattern := 0x00000011#32, words := 5 }, rfl,
    selectRow_wrap_header (opc := 0x11) (by decide) rfl rfl fmt plen, rfl, by simp [encode]⟩

theorem getpixel (x y : Word) : Statement (.getpixel x y) :=
  ⟨_, _, { op := .getpixel, mask := 0xFFFFFFFF#32, pattern := 0x00000020#32, words := 3 }, rfl, by decide, rfl, le_refl 3⟩

theorem setpixel (x y color : Word) : Statement (.setpixel x y color) :=
  ⟨_, _, { op := .setpixel, mask := 0xFFFFFFFF#32, pattern := 0x00000021#32, words := 4 }, rfl, by decide, rfl, le_refl 4⟩

theorem blendpixel (x y color ratio : Word) : Statement (.blendpixel x y color ratio) :=
  ⟨_, _, { op := .blendpixel, mask := 0xFFFFFFFF#32, pattern := 0x00000022#32, words := 5 }, rfl, by decide, rfl,
    le_refl 5⟩

theorem drawbres (x0 y0 x1 y1 color : Word) : Statement (.drawbres x0 y0 x1 y1 color) :=
  ⟨_, _, { op := .drawbres, mask := 0xFFFFFFFF#32, pattern := 0x00000030#32, words := 6 }, rfl, by decide, rfl, le_refl 6⟩

theorem drawpoint (x0 y0 color : Word) : Statement (.drawpoint x0 y0 color) :=
  ⟨_, _, { op := .drawpoint, mask := 0xFFFFFFFF#32, pattern := 0x00000031#32, words := 4 }, rfl, by decide, rfl, le_refl 4⟩

theorem drawaaline (x0 y0 x1 y1 color : Word) : Statement (.drawaaline x0 y0 x1 y1 color) :=
  ⟨_, _, { op := .drawaaline, mask := 0xFFFFFFFF#32, pattern := 0x00000032#32, words := 6 }, rfl, by decide, rfl,
    le_refl 6⟩

end Sys2Proof.Laws.HeaderRow
end

