-- ==== Sys2Proof/Laws/Wu.lean ====
section
/-!
SUPPORT. What the loop and the columns of the Wu line are in closed form, and the weights of the splat as one triangle.
-/

namespace Sys2Proof.Machine

/-- A column's two blends straddle its ordinate (R136). -/
theorem columnSplats_eq (a : Int) (b gap : ℚ) : columnSplats a b gap = straddling a b gap := rfl

/-- The main loop with the exact ordinate in place of the accumulator (R137). -/
theorem wuLoop_eq (gradient : ℚ) (n : Nat) (a : Int) (intery : ℚ) :
    wuLoop gradient n a intery =
      (List.range n).flatMap fun k : Nat => straddling (a + k) (intery + gradient * k) 1 := by
  induction n generalizing a intery with
  | zero => rfl
  | succ n ih =>
    rw [wuLoop, ih, List.range_succ_eq_map, List.flatMap_cons, List.flatMap_map]
    congr 1
    · simp [columnSplats_eq]
    · congr 1
      funext k
      congr 1
      · push_cast; ring
      · push_cast; ring

/-- The triangle of unit half-width at a distance (R131). -/
theorem tent_eq {f : ℚ} (h0 : 0 ≤ f) (h1 : f < 1) :
    tent f = { lower := max 0 (1 - |f + 1 / 2|), middle := max 0 (1 - |f - 1 / 2|), upper := max 0 (1 - |f - 3 / 2|) } := by
  rw [abs_of_nonneg (a := f + 1 / 2) (by linarith), abs_of_nonpos (a := f - 3 / 2) (by linarith), tent]
  split
  · next h => subst h; norm_num
  · split
    · next h =>
      rw [abs_of_nonpos (by linarith), max_eq_right (by linarith), max_eq_right (by linarith), max_eq_left (by linarith)]
      congr 1 <;> ring
    · next hne h =>
      have h := lt_of_le_of_ne (not_lt.mp h) (Ne.symm hne)
      rw [abs_of_nonneg (by linarith), max_eq_left (by linarith), max_eq_right (by linarith), max_eq_right (by linarith)]
      congr 1 <;> ring

end Sys2Proof.Machine
end

