-- ==== Sys2Proof/Tests/Slice0.lean ====
section
/-!
SUPPORT. The model's own tests: ill-formed terms that WellFormed refuses, words written out from the spec's encodings, single
steps whose expected results are the vectors of spec/95_test_vectors.md, and for every obligation with hypotheses a concrete
state and operands that meet them, at the ends of their ranges.
-/

open Sys2Proof Sys2Proof.Machine

namespace Sys2Proof.Tests

/-! ## Helpers -/

/-- The next state of an outcome, if it is one. -/
def nextOf : Host.Outcome State Fault Refusal → Option State
  | .next s => some s
  | .fault _ => none
  | .refused _ => none

/-- A bound buffer whose PMEM lists the given cells. -/
def buffer (f : PixelFormat) (width height stride dlen : Word) (cells : Memory) : State :=
  { State.reset with
    bound := true, format := f, width := width, height := height, stride := stride, dlen := dlen, pmem := cells }

/-- An Indexed8 buffer with one row of index bytes and `plen` palette entries. -/
def indexed (width dlen : Word) (plen : BitVec 9) (pal : List Word) (cells : Memory) : State :=
  { buffer .indexed8 width 1 dlen dlen cells with plen := plen, pal := palLoad State.reset.pal plen.toNat pal }

/-- The reset state of a machine with another capacity. -/
def resetWith (n : Fin 4294967296) : State := { State.reset with cfg := { pmemBytes := n } }

/-- The reset state after the host pushes words. -/
def pushed (ws : List Word) : State := { State.reset with stream := ws }

/-- What a command leaves in `OUT`. -/
def outOf (i : Instr) (s : State) : Option (List Word) := (nextOf (exec i s)).map fun t => t.out

/-- The word of `STATUS` that a command leaves. -/
def statusOf (i : Instr) (s : State) : Option Word := (nextOf (exec i s)).map fun t => statusWord t.bound t.fault t.errcode

/-- The fault state and the first `n` bytes of PMEM that a command leaves. -/
def bytesOf (i : Instr) (s : State) (n : Nat) : Option (Bool × List Byte) :=
  (nextOf (exec i s)).map fun t => (t.fault, memReadBytes t.pmem 0 n)

/-! ## WellFormed -/

/-- R57(a): 0x10001 is refused, 0x10000 is not. -/
theorem test_wellformed_ratio :
    WellFormed Config.pxc1 (.blendpixel 0 0 0 0x10001) = false ∧ WellFormed Config.pxc1 (.blendpixel 0 0 0 0x10000) = true := by
  decide

/-- R57(b): a WRAP of 257 palette words is refused. -/
theorem test_wellformed_plen :
    WellFormed Config.pxc1 (.wrap 0 257 0 0 0 0 [] []) = false ∧ WellFormed Config.pxc1 (.wrap 0 256 0 0 0 0 [] []) = true := by
  decide

/-- R58: a WRAP that passes its checks carries exactly `PLEN` palette words and `ceil(LEN/4)` data words. -/
theorem test_wellformed_payload :
    WellFormed Config.pxc1 (.wrap 0 1 1 1 5 5 [0] [0, 0]) = true ∧
    WellFormed Config.pxc1 (.wrap 0 1 1 1 5 5 [] [0, 0]) = false ∧
    WellFormed Config.pxc1 (.wrap 0 1 1 1 5 5 [0] [0]) = false := by decide

/-- R58: a WRAP that fails its checks carries none. -/
theorem test_wellformed_failing_wrap :
    WellFormed Config.pxc1 (.wrap 0 1 0 1 5 5 [0] [0, 0]) = false ∧
    WellFormed Config.pxc1 (.wrap 0 1 0 1 5 5 [] []) = true := by decide

/-! ## Decoding: words from spec/30_encoding.md section 7 and spec/95_test_vectors.md -/

theorem test_decode_bpp : decode Config.pxc1 [0x00000301#32] = .packet (.bpp 3) 1 := by decide

theorem test_decode_hasalpha : decode Config.pxc1 [0x00000202#32] = .packet (.hasalpha 2) 1 := by decide

theorem test_decode_create :
    decode Config.pxc1 [0x00000110#32, 0x0000000A#32, 0x00000002#32] = .packet (.create 1 10 2) 3 := by decide

theorem test_decode_wrap :
    decode Config.pxc1
        [0x00030011#32, 0x00000003#32, 0x00000002#32, 0x00000004#32, 0x00000008#32, 0xFF000000#32, 0xFFFF0000#32,
          0x8000FF00#32, 0xEE020100#32, 0xDD000102#32] =
      .packet (.wrap 0 3 3 2 4 8 [0xFF000000, 0xFFFF0000, 0x8000FF00] [0xEE020100, 0xDD000102]) 10 := by decide

/-- V-WR: no payload is awaited when the checks fail. -/
theorem test_decode_failing_wrap :
    decode Config.pxc1 [0x00000211#32, 0x00000002#32, 0x00000002#32, 0x00000008#32, 0x0000000F#32] =
      .packet (.wrap 2 0 2 2 8 15 [] []) 0 := by decide

theorem test_decode_getpixel :
    decode Config.pxc1 [0x00000020#32, 0xFFFFFFFF#32, 0x00000000#32] = .packet (.getpixel 0xFFFFFFFF 0) 3 := by decide

theorem test_decode_setpixel :
    decode Config.pxc1 [0x00000021#32, 0x00000002#32, 0x00000001#32, 0x12ABCDEF#32] =
      .packet (.setpixel 2 1 0x12ABCDEF) 4 := by decide

theorem test_decode_blendpixel :
    decode Config.pxc1 [0x00000022#32, 0x00000001#32, 0x00000000#32, 0xFFFFFFFF#32, 0x00008000#32] =
      .packet (.blendpixel 1 0 0xFFFFFFFF 0x8000) 5 := by decide

theorem test_decode_drawbres :
    decode Config.pxc1 [0x00000030#32, 0x00000000#32, 0x00000001#32, 0x00000004#32, 0x00000003#32, 0xFFFFFFFF#32] =
      .packet (.drawbres 0 1 4 3 0xFFFFFFFF) 6 := by decide

theorem test_decode_drawpoint :
    decode Config.pxc1 [0x00000031#32, 0x00014000#32, 0x00018000#32, 0xFF204060#32] =
      .packet (.drawpoint 0x00014000 0x00018000 0xFF204060) 4 := by decide

theorem test_decode_drawaaline :
    decode Config.pxc1 [0x00000032#32, 0x00000000#32, 0x00010000#32, 0x000A0000#32, 0x00020000#32, 0xFFFFFFFF#32] =
      .packet (.drawaaline 0 0x00010000 0x000A0000 0x00020000 0xFFFFFFFF) 6 := by decide

/-- The illegal headers of spec/30_encoding.md section 7. -/
theorem test_decode_illegal_headers :
    decode Config.pxc1 [0x00000000#32] = .illegal .noOpcodeRow ∧ decode Config.pxc1 [0x00000120#32] = .illegal .noOpcodeRow ∧
    decode Config.pxc1 [0x02000010#32] = .illegal .noOpcodeRow ∧ decode Config.pxc1 [0x00010021#32] = .illegal .noOpcodeRow := by
  decide

/-- V-WR: a `PLEN` field of 257. -/
theorem test_decode_illegal_plen :
    decode Config.pxc1 [0x01010011#32, 0x00000001#32, 0x00000001#32, 0x00000004#32, 0x00000004#32] =
      .illegal .paletteTooLong := by decide

/-- Each opcode table row, as the host numbers it, with operand words of zeros. -/
theorem test_decode_table_words :
    decodeTableWord 32 0x00000101 = some (.bpp 1) ∧ decodeTableWord 32 0x00000102 = some (.hasalpha 1) ∧
    decodeTableWord 96 0x000000020000000A00000110 = some (.create 1 10 2) ∧
    decodeTableWord 32 0x00000011 = some (.wrap 0 0 0 0 0 0 [] []) ∧
    decodeTableWord 96 0x0000000000000005FFFFFFFF00000020 = some (.getpixel 0xFFFFFFFF 5) := by decide

/-- A placed instruction is the one the next step runs. -/
theorem test_withFetchWord :
    (nextOf (step (State.reset.withFetchWord 32 0x00000301))).map (fun t => (t.pos, t.out)) = some (1, [8]) := by decide

/-! ## One step each, against spec/95_test_vectors.md -/

/-- V-FP. -/
theorem test_bpp : outOf (.bpp 3) State.reset = some [8] ∧ statusOf (.bpp 4) State.reset = some 0x00000012 := by decide

/-- V-FP. -/
theorem test_hasalpha : outOf (.hasalpha 1) State.reset = some [0] ∧ outOf (.hasalpha 2) State.reset = some [1] := by decide

/-- V-CR1: widths 5 and 10 of Rgb24. -/
theorem test_create_stride : createStride .rgb24 5 = 16 ∧ createStride .rgb24 10 = 32 ∧ createStride .argb64 3 = 24 := by
  decide

/-- V-CR2: 80 bytes do not fit in 64 and fit in 80. -/
theorem test_create_capacity :
    statusOf (.create 2 5 4) (resetWith 64) = some 0x000000A2 ∧ statusOf (.create 2 5 4) (resetWith 80) = some 0x00000001 := by
  decide

/-- V-WR, last byte of a `len = 3` payload ignored. -/
theorem test_wrap_bytes :
    bytesOf (.wrap 0 2 3 1 3 3 [0xFFAAAAAA, 0xFFBBBBBB] [0xFF010001]) State.reset 4 = some (false, [1, 0, 1, 0]) := by
  decide +kernel

/-- V-WR: width 0 and a wrong length; the dimensions are checked first. -/
theorem test_wrap_order : statusOf (.wrap 2 0 0 2 8 15 [] []) State.reset = some 0x00000022 := by decide

/-- V-PX2: an Argb32 pixel keeps its alpha; V-PX5: a palette entry is pushed unchanged. -/
theorem test_getpixel :
    outOf (.getpixel 1 0) (buffer .argb32 2 1 8 8 [(4, 0xEF), (5, 0xCD), (6, 0xAB), (7, 0x12)]) = some [0x12ABCDEF] ∧
    outOf (.getpixel 2 0) (indexed 3 3 3 [0xFF000000, 0xFFFF0000, 0x8000FF00] [(1, 1), (2, 2)]) = some [0x8000FF00] := by
  decide +kernel

/-- V-WR, stride 0: an in-bounds read outside the buffer. -/
theorem test_getpixel_access_fault : statusOf (.getpixel 0 0) (buffer .argb32 1 1 0 0 []) = some 0x00000093 := by decide

/-- V-PX3: bytes 4 to 7 of an Argb64 pixel are left alone. -/
theorem test_setpixel_argb64 :
    bytesOf (.setpixel 1 0 0x80112233) (buffer .argb64 2 1 16 16 [(12, 7)]) 16 =
      some (false, [0, 0, 0, 0, 0, 0, 0, 0, 0x33, 0x22, 0x11, 0x80, 7, 0, 0, 0]) := by decide

/-- V-PX5: an in-bounds write to Indexed8. -/
theorem test_setpixel_indexed : statusOf (.setpixel 0 0 0xFFFFFFFF) (indexed 1 1 1 [0] []) = some 0x00000063 := by decide

/-- V-BL3. -/
theorem test_blendpixel :
    bytesOf (.blendpixel 0 0 0x00C80032 0x4000) (buffer .argb32 1 1 4 4 [(0, 0x64), (1, 0x64), (2, 0x64), (3, 0x40)]) 4 =
      some (false, [0x57, 0x4B, 0x7D, 0xFF]) := by decide +kernel

/-- V-BL10: alpha is forced although no channel moves. -/
theorem test_blendpixel_alpha :
    bytesOf (.blendpixel 0 0 0x00FFFFFF 1) (buffer .argb32 1 1 4 4 []) 4 = some (false, [0, 0, 0, 0xFF]) := by decide +kernel

/-- V-BR5: a descending line climbs; V-BR6: a steep one climbs one row a column. -/
theorem test_drawbres_pixels :
    bresPixels 0 0 4 (-2) = [(0, 0), (1, 1), (2, 1), (3, 2)] ∧ bresPixels 0 0 3 5 = [(0, 0), (1, 1), (2, 2)] := by
  decide +kernel

/-- V-BR9 on a 2 by 1 buffer: the end column is not written. -/
theorem test_drawbres :
    bytesOf (.drawbres 0 0 1 0 0xFF112233) (buffer .rgb24 2 1 8 8 []) 8 =
      some (false, [0x33, 0x22, 0x11, 0, 0, 0, 0, 0]) := by decide +kernel

/-- R131, the table's ends: the middle weight at the pixel edge and at its centre. -/
theorem test_tent :
    tent 0 = { lower := 1 / 2, middle := 1 / 2, upper := 0 } ∧ tent (1 / 2) = { lower := 0, middle := 1, upper := 0 } ∧
    tent (3 / 4) = { lower := 0, middle := 3 / 4, upper := 1 / 4 } := by decide +kernel

/-- R132: a point at a pixel's centre covers that pixel alone. R133, its example: `(1.25, 1.5)` leans to the left column. -/
theorem test_drawpoint :
    bytesOf (.drawpoint 0x8000 0x8000 0x00FFFFFF) (buffer .rgb24 1 1 4 4 []) 4 = some (false, [0xFF, 0xFF, 0xFF, 0]) ∧
    (pointSplats (5 / 4) (3 / 2)).filter (fun p => p.w ≠ 0) = [{ x := 0, y := 1, w := 1 / 4 }, { x := 1, y := 1, w := 3 / 4 }] := by
  decide +kernel

/-- Two columns and three rows of Rgb24 with a stride of one pixel: adopted by WRAP, not well-formed (R36). Pixel `(1, y)` is
pixel `(0, y+1)`. -/
def overlapping : State := buffer .rgb24 2 3 3 9 []

/-- By hand from R107 and R132: four weights of 1/4; `(1, 0)` and `(0, 1)` are one pixel, which goes from 0 to 63 and then to
`floor(3*63/4 + 255/4)` = 111. -/
theorem test_drawpoint_overlapping :
    bytesOf (.drawpoint 0x10000 0x10000 0x00FFFFFF) overlapping 9 =
      some (false, [63, 63, 63, 111, 111, 111, 63, 63, 63]) := by decide +kernel

/-- R142, first trace: the end column of `(0,0)` to `(10,0)` has half weight, the columns between have weight 1. Second
trace, steep: the endpoints, and the columns `k = 1` and `k = 2` of the loop; fifth trace: a vertical line, reversed. -/
theorem test_drawaaline_weights :
    ((aalineSplats 0 0 10 0).take 3).map Splat.w = [1 / 2, 0, 1 / 2] ∧ (aalineSplats 0 0 10 0).length = 22 ∧
    (aalineSplats 0 0 1 10).take 8 =
      [ { x := 0, y := 0, w := 1 / 2 }, { x := 1, y := 0, w := 0 }, { x := 1, y := 10, w := 1 / 2 }, { x := 2, y := 10, w := 0 },
        { x := 0, y := 1, w := 9 / 10 }, { x := 1, y := 1, w := 1 / 10 }, { x := 0, y := 2, w := 8 / 10 },
        { x := 1, y := 2, w := 2 / 10 } ] ∧
    ((aalineSplats 2 5 2 1).filter fun p => p.w ≠ 0) =
      [ { x := 2, y := 1, w := 1 / 2 }, { x := 2, y := 5, w := 1 / 2 }, { x := 2, y := 2, w := 1 }, { x := 2, y := 3, w := 1 },
        { x := 2, y := 4, w := 1 } ] := by
  decide +kernel

/-- By hand from R135 to R137: on `(0,0)` to `(1/4,0)` both endpoint columns are column 0, with weights 1/2 and 3/4, and
0 becomes 127, then `floor(127/4 + 3*255/4)` = 223. -/
theorem test_drawaaline :
    bytesOf (.drawaaline 0 0 0x4000 0 0x00FFFFFF) (buffer .rgb24 1 1 4 4 []) 4 = some (false, [223, 223, 223, 0]) := by
  decide +kernel

/-- R6, R11: a step moves `pos` past its packet, and a fault leaves it. -/
theorem test_step_pos :
    (nextOf (step (pushed [0x00000301]))).map (fun t => t.pos) = some 1 ∧
    (nextOf (step (pushed [0x00000401]))).map (fun t => t.pos) = some 0 := by decide

/-- R6: no words, no step. -/
theorem test_step_waits : step State.reset = .fault .awaitingWords := rfl

/-- Storing the byte an unlisted address reads as unlists it. -/
theorem test_memory_canonical : memPut [(1, 5), (2, 6)] 1 0 = [(2, 6)] ∧ memPut [(2, 6)] 1 5 = [(1, 5), (2, 6)] := by decide

theorem test_reset_memory : memWf State.reset.pmem := by decide

/-! ## Witnesses: what meets the hypotheses of each obligation, at the ends of the ranges -/

/-- For the fault clauses of BppPushesBytesPerPixel, HasalphaPushesAlphaPresence and UnsupportedFormatIsRaised. -/
theorem witness_unknown_format : 4 ≤ (4 : BitVec 8).toNat ∧ 4 ≤ (255 : BitVec 8).toNat := by decide

theorem witness_UnsupportedFormatIsRaised :
    isPixelCommand (.getpixel 0 0) = true ∧ State.reset.fault = false ∧
      ∃ t, exec (.getpixel 0 0) State.reset = .next t ∧ t.fault = true := ⟨rfl, rfl, _, rfl, rfl⟩

/-- A command and a step that record code 1. -/
theorem witness_UnsupportedFormatIsRaised_converse :
    (∃ t, exec (.create 4 0 0) State.reset = .next t ∧ t.fault = true ∧ t.errcode = 1) ∧
      (pushed [0x00000401]).fault = false ∧
      ∃ t, step (pushed [0x00000401]) = .next t ∧ t.fault = true ∧ t.errcode = 1 :=
  ⟨⟨_, rfl, rfl, rfl⟩, rfl, _, rfl, rfl, rfl⟩

/-- The smallest buffer that just fits, and the widest. -/
theorem witness_CreateMakesAZeroFilledBuffer :
    (0 < (1 : Word).toInt ∧ 4 * ((formatBytes .argb64 * (1 : Word).toNat + 3) / 4) * (1 : Word).toNat ≤
      (resetWith 8).cfg.pmemBytes.val) ∧
    (0 < (0x7FFFFFFF : Word).toInt ∧ 4 * ((formatBytes .indexed8 * (0x7FFFFFFF : Word).toNat + 3) / 4) * (1 : Word).toNat ≤
      (resetWith 0x80000000).cfg.pmemBytes.val) := by decide

theorem witness_CreatedBuffersAreWellFormed :
    (resetWith 4).fault = false ∧ ∃ t, exec (.create 1 1 1) (resetWith 4) = .next t ∧ t.fault = false :=
  ⟨rfl, _, rfl, rfl⟩

/-- A payload with 256 palette words that just fits, and an empty payload. -/
theorem witness_WrapAdoptsThePayload :
    ((256 : BitVec 9).toNat ≤ 256 ∧ 0 < (1 : Word).toInt ∧ (5 : Word).toNat = (5 : Word).toNat * (1 : Word).toNat ∧
      (5 : Word).toNat ≤ (resetWith 5).cfg.pmemBytes.val ∧ (List.replicate 256 (0 : Word)).length = (256 : BitVec 9).toNat ∧
      ([0, 0] : List Word).length = ((5 : Word).toNat + 3) / 4) ∧
    ((0 : BitVec 9).toNat ≤ 256 ∧ (0 : Word).toNat = (0 : Word).toNat * (1 : Word).toNat ∧
      (0 : Word).toNat ≤ (resetWith 0).cfg.pmemBytes.val ∧ ([] : List Word).length = (0 : BitVec 9).toNat ∧
      ([] : List Word).length = ((0 : Word).toNat + 3) / 4) := by
  decide +kernel

theorem witness_InvalidDimensionsIsRaised :
    ((0 : Word).toInt ≤ 0 ∨ (1 : Word).toInt ≤ 0) ∧ ((1 : Word).toInt ≤ 0 ∨ (0x80000000 : Word).toInt ≤ 0) := by decide

/-- The second length agrees with its product modulo 2^32 and still differs. -/
theorem witness_BufferSizeMismatchIsRaised :
    0 < (2 : Word).toInt ∧ ((15 : Word).toNat : Int) ≠ ((8 : Word).toNat : Int) * (2 : Word).toInt ∧
      ((0 : Word).toNat : Int) ≠ ((0x80000000 : Word).toNat : Int) * (2 : Word).toInt := by decide

/-- One byte too few for CREATE, and for WRAP. -/
theorem witness_CapacityExceededIsRaised :
    0 < (1 : Word).toInt ∧
      (resetWith 3).cfg.pmemBytes.val < 4 * ((formatBytes .rgb24 * (1 : Word).toNat + 3) / 4) * (1 : Word).toNat ∧
      (5 : Word).toNat = (5 : Word).toNat * (1 : Word).toNat ∧ (resetWith 4).cfg.pmemBytes.val < (5 : Word).toNat := by decide

/-- One pixel past each side of a 2 by 1 buffer. -/
theorem witness_OutOfBoundsAccessIsSilent :
    (buffer .indexed8 2 1 2 2 []).bound = true ∧
      ((0xFFFFFFFF : Word).toInt < 0) ∧ ((0x80000000 : Word).toInt < 0) ∧
      ((buffer .indexed8 2 1 2 2 []).width.toNat : Int) ≤ (2 : Word).toInt ∧
      ((buffer .indexed8 2 1 2 2 []).height.toNat : Int) ≤ (1 : Word).toInt := by decide

/-- The last pixel of a buffer whose last accessed byte is its last byte, in each direct format: the hypotheses of
GetpixelReadsADirectPixel, SetpixelStoresThePixel, SetThenGetRoundTrips and BlendRatioEndpoints. -/
theorem witness_direct_pixel :
    (∀ s ∈ [buffer .rgb24 2 1 6 6 [], buffer .argb32 2 1 8 8 []],
      s.bound = true ∧ s.format ≠ .indexed8 ∧ inBounds s (1 : Word).toInt (0 : Word).toInt = true ∧
        s.stride.toNat * (0 : Word).toNat + formatBytes s.format * (1 : Word).toNat + directBytes s.format = s.dlen.toNat) ∧
    (inBounds (buffer .argb64 1 2 8 12 []) (0 : Word).toInt (1 : Word).toInt = true ∧
      8 * (1 : Word).toNat + formatBytes .argb64 * (0 : Word).toNat + directBytes .argb64 ≤ 12) := by decide

/-- The first entry of a palette of one, and the last of a palette of 256. -/
theorem witness_GetpixelReadsThroughThePalette :
    (let s := indexed 1 1 1 [0] []
     s.bound = true ∧ s.format = .indexed8 ∧ inBounds s (0 : Word).toInt (0 : Word).toInt = true ∧ 0 + 1 ≤ s.dlen.toNat ∧
      (0 : Fin 256).val = (memRead s.pmem 0).toNat ∧ (0 : Fin 256).val < s.plen.toNat) ∧
    (let s := indexed 1 1 256 [] [(0, 255)]
     (255 : Fin 256).val = (memRead s.pmem 0).toNat ∧ (255 : Fin 256).val < s.plen.toNat) := by decide

/-- An absent palette, and an index equal to `PLEN`; the ratio is the smallest. -/
theorem witness_PaletteLookupIsRaised :
    (let s := indexed 1 1 0 [] []
     s.bound = true ∧ s.format = .indexed8 ∧ inBounds s (0 : Word).toInt (0 : Word).toInt = true ∧
      pixelOffset s 0 0 + 1 ≤ s.dlen.toNat ∧ s.plen.toNat ≤ (memRead s.pmem (pixelOffset s 0 0)).toNat) ∧
    (let s := indexed 1 1 7 [] [(0, 7)]
     s.plen.toNat ≤ (memRead s.pmem (s.stride.toNat * (0 : Word).toNat + (0 : Word).toNat)).toNat) ∧ (1 : Word) ≠ 0 := by decide

/-- One byte short, on a direct format and on Indexed8. -/
theorem witness_AccessFaultIsRaised :
    (let s := buffer .argb32 1 1 3 3 []
     s.bound = true ∧ inBounds s (0 : Word).toInt (0 : Word).toInt = true ∧ s.format ≠ .indexed8 ∧
      s.dlen.toNat < s.stride.toNat * (0 : Word).toNat + formatBytes s.format * (0 : Word).toNat +
        (if s.format = .indexed8 then 1 else directBytes s.format)) ∧
    (let s := indexed 1 0 0 [] []
     inBounds s (0 : Word).toInt (0 : Word).toInt = true ∧
      s.dlen.toNat < s.stride.toNat * (0 : Word).toNat + formatBytes s.format * (0 : Word).toNat +
        (if s.format = .indexed8 then 1 else directBytes s.format)) := by decide

/-- The draw commands of AccessFaultIsRaised, on a buffer that holds its first pixel exactly and none of its second. -/
theorem witness_AccessFaultIsRaised_draw :
    let s := buffer .rgb24 2 1 3 3 []
    s.bound = true ∧ s.format ≠ .indexed8 ∧ (2 : Word) ≠ 0 ∧
      bresPixels (0 : Word).toInt (0 : Word).toInt (2 : Word).toInt (0 : Word).toInt = [(0, 0)] ++ (1, 0) :: [] ∧
      (∀ p ∈ ([(0, 0)] : List (Int × Int)), inBounds s p.1 p.2 = true → PixelFits s p.1 p.2) ∧ inBounds s 1 0 = true ∧
      s.dlen.toNat < pixelOffset s 1 0 + (if s.format = .indexed8 then 1 else directBytes s.format) ∧
      (∃ pre post, pointSplats (q16 0x10000) (q16 0x8000) = pre ++ { x := 1, y := 0, w := 1 / 2 } :: post ∧
        (∀ q ∈ pre, q.w ≠ 0 → inBounds s q.x q.y = true → s.format ≠ .indexed8 ∧ PixelFits s q.x q.y)) ∧
      ∃ pre post, aalineSplats (q16 0) (q16 0) (q16 0x10000) (q16 0) = pre ++ { x := 1, y := 0, w := 1 / 2 } :: post ∧
        (∀ q ∈ pre, q.w ≠ 0 → inBounds s q.x q.y = true → s.format ≠ .indexed8 ∧ PixelFits s q.x q.y) := by
  refine ⟨by decide, by decide, by decide, by decide +kernel, by decide, by decide, by decide, ?_, ?_⟩
  · exact ⟨(pointSplats (q16 0x10000) (q16 0x8000)).take 4, (pointSplats (q16 0x10000) (q16 0x8000)).drop 5, by decide +kernel⟩
  · exact ⟨(aalineSplats (q16 0) (q16 0) (q16 0x10000) (q16 0)).take 2,
      (aalineSplats (q16 0) (q16 0) (q16 0x10000) (q16 0)).drop 3, by decide +kernel⟩

/-- The same for an antialiased command on an Indexed8 buffer that holds no byte. -/
theorem witness_AccessFaultIsRaised_indexed :
    let s := indexed 1 0 0 [] []
    inBounds s 0 0 = true ∧ s.dlen.toNat < pixelOffset s 0 0 + (if s.format = .indexed8 then 1 else directBytes s.format) ∧
      ∃ pre post, pointSplats (q16 0x8000) (q16 0x8000) = pre ++ { x := 0, y := 0, w := 1 } :: post ∧
        (∀ q ∈ pre, q.w ≠ 0 → inBounds s q.x q.y = true → s.format ≠ .indexed8 ∧ PixelFits s q.x q.y) := by
  refine ⟨by decide, by decide, (pointSplats (q16 0x8000) (q16 0x8000)).take 4,
    (pointSplats (q16 0x8000) (q16 0x8000)).drop 5, by decide +kernel⟩

theorem witness_NoBufferIsRaised : isPixelCommand (.drawbres 3 3 3 7 0) = true ∧ State.reset.bound = false := by decide

/-- An index just below `PLEN`, for the clause on BLENDPIXEL. -/
theorem witness_IndexedWriteIsRefused :
    let s := indexed 1 1 1 [0] []
    s.bound = true ∧ s.format = .indexed8 ∧ inBounds s (0 : Word).toInt (0 : Word).toInt = true ∧
      s.stride.toNat * (0 : Word).toNat + (0 : Word).toNat + 1 ≤ s.dlen.toNat ∧
      (memRead s.pmem (s.stride.toNat * (0 : Word).toNat + (0 : Word).toNat)).toNat < s.plen.toNat ∧ (1 : Word) ≠ 0 := by decide

/-- Two Rgb24 pixels and two bytes of padding. -/
def direct : State := buffer .rgb24 2 1 8 8 []

/-- A well-formed buffer of a direct format, for WriteChangesOnePixel and the image clauses of DrawbresDrawsTheVisitedPixels,
DrawpointBlendsTheSplat and DrawaalineBlendsTheLine. -/
theorem witness_direct_buffer : DirectBuffer direct ∧ (0xFFFFFFFF : Word) ≠ 0 := ⟨⟨⟨rfl, rfl, by decide⟩, by decide⟩, by decide⟩

/-- An in-bounds pixel that reads, for the image clauses of DrawpointBlendsTheSplat and DrawaalineBlendsTheLine. -/
theorem witness_readable_pixel :
    inBounds direct 1 0 = true ∧ getPixel direct 1 0 = .ok { a := 255, r := 0, g := 0, b := 0 } := ⟨rfl, rfl⟩

/-- Draws whose pixels all pass the access check on a buffer that is not well-formed, up to its last byte: the hypotheses of
DrawbresDrawsTheVisitedPixels, DrawpointBlendsTheSplat and DrawaalineBlendsTheLine. -/
theorem witness_draws_that_fit :
    let s := overlapping
    s.bound = true ∧ s.format ≠ .indexed8 ∧ ¬ formatBytes s.format * s.width.toNat ≤ s.stride.toNat ∧ (2 : Word) ≠ 0 ∧
      (∀ p ∈ bresPixels (0 : Word).toInt (0 : Word).toInt (2 : Word).toInt (1 : Word).toInt,
        inBounds s p.1 p.2 = true → PixelFits s p.1 p.2) ∧
      (∀ p ∈ pointSplats (q16 0x10000) (q16 0x10000), p.w ≠ 0 → inBounds s p.x p.y = true → PixelFits s p.x p.y) ∧
      (∀ p ∈ aalineSplats (q16 0) (q16 0) (q16 0x10000) (q16 0x8000), p.w ≠ 0 → inBounds s p.x p.y = true →
        PixelFits s p.x p.y) ∧
      pixelOffset s 1 1 + directBytes s.format = s.dlen.toNat := by decide +kernel

/-- Bytes outside the visited pixels, for the frame clauses of the same statements and of FaultsArePrecise. -/
theorem witness_untouched_byte :
    (∀ p ∈ bresPixels 0 0 2 0, inBounds overlapping p.1 p.2 = true → ¬ PixelByte overlapping p.1 p.2 6) ∧
    (∀ p ∈ drawnPixels (.drawpoint 0x8000 0x8000 7), inBounds overlapping p.1 p.2 = true → ¬ PixelByte overlapping p.1 p.2 3) ∧
    (∀ p ∈ drawnPixels (.drawaaline 0 0 0x4000 0 7), inBounds overlapping p.1 p.2 = true →
      ¬ PixelByte overlapping p.1 p.2 3) := by decide +kernel

theorem witness_WriteChangesOnePixel :
    DirectBuffer direct ∧ inBounds direct (1 : Word).toInt (0 : Word).toInt = true ∧
      (∃ t, exec (.setpixel 1 0 7) direct = .next t) ∧ ((0 : Int) ≠ (1 : Word).toInt ∨ (0 : Int) ≠ (0 : Word).toInt) :=
  ⟨witness_direct_buffer.1, rfl, ⟨_, rfl⟩, by decide⟩

theorem witness_PixelsOfAWellFormedBufferAreDisjoint :
    WellFormedBuffer direct ∧ inBounds direct 0 0 = true ∧ inBounds direct 1 0 = true ∧ ((0 : Int) ≠ 1 ∨ (0 : Int) ≠ 0) :=
  ⟨witness_direct_buffer.1.1, rfl, rfl, by decide⟩

/-- The smallest and the largest ratio, on the last pixel of a tight buffer. -/
theorem witness_BlendpixelMixesTowardTheColor :
    (let s := buffer .argb32 2 1 8 8 []
     s.bound = true ∧ s.format ≠ .indexed8 ∧ inBounds s (1 : Word).toInt (0 : Word).toInt = true ∧
      4 = s.stride.toNat * (0 : Word).toNat + formatBytes s.format * (1 : Word).toNat ∧ 4 + directBytes s.format ≤ s.dlen.toNat) ∧
    (0 < (1 : Word).toNat ∧ (1 : Word).toNat ≤ 65536) ∧ 0 < (65536 : Word).toNat ∧ (65536 : Word).toNat ≤ 65536 := by decide

/-- A bound buffer of any format, for the ratio 0 of BlendRatioEndpoints and for DegenerateLineIsRaised (on Indexed8). -/
theorem witness_bound_buffer : (indexed 1 1 0 [] []).bound = true ∧ (3 : Word) = 3 := by decide

/-- The ends of the ratio range, and pairs of channels for each law. -/
theorem witness_MixLaws :
    ((0 : ℚ) ≤ 0 ∧ (0 : ℚ) ≤ 1) ∧ (1 : ℚ) ≤ 1 ∧ (0 : Byte).toNat < (255 : Byte).toNat ∧ (65535 / 65536 : ℚ) < 1 ∧
      (65536 : Nat) ≤ 65536 := by
  decide +kernel

theorem witness_DrawbresBackwardIsANoOp :
    (indexed 1 1 0 [] []).bound = true ∧ (0x80000000 : Word).toInt < (0x7FFFFFFF : Word).toInt ∧
      (4 : Word).toInt < (5 : Word).toInt := by decide

theorem witness_BresenhamIntegerFormIsTheSameMachine :
    ((0 : Int) < 1 ∧ (0 : Int) ≤ 0 ∧ ((0 : Int) : ℚ) = 2 * ((1 : Int) : ℚ) * 0) ∧
    ((0 : Int) < 4 ∧ (0 : Int) ≤ 2 ∧ ((4 : Int) : ℚ) = 2 * ((4 : Int) : ℚ) * (1 / 2)) ∧ (4 : Int) ≠ 0 := by norm_num

/-- Slope 0, the slope 1 that both clauses cover with one answer, and a steep line, at the last column. -/
theorem witness_BresenhamRows :
    ((3 : Nat) : Int) < 4 - 0 ∧ |(0 : Int) - 0| ≤ 4 - 0 ∧ (|(4 : Int) - 0| ≤ 4 - 0 ∧ 4 - 0 ≤ |(4 : Int) - 0|) ∧
      (4 : Int) - 0 ≤ |(-9 : Int) - 0| := by decide

theorem witness_BresenhamRows_meet : (3 : Int) = ⌊((3 : Nat) : ℚ) * (((|(4 : Int) - 0| : Int) : ℚ) / ((4 - 0 : Int) : ℚ)) + 1 / 2⌋ := by
  decide +kernel

theorem witness_TentIsTheTriangleFilter : ((0 : ℚ) ≤ 0 ∧ (0 : ℚ) < 1) ∧ (0 : ℚ) ≤ 65535 / 65536 ∧ (65535 / 65536 : ℚ) < 1 := by
  norm_num

/-- A shallow line, a line of slope 1 (not steep) and a steep one, each with its rounded ends. -/
theorem witness_WuLineWork :
    (¬ ((0 : ℚ) = 10 ∧ (0 : ℚ) = 0) ∧ ¬ |(10 : ℚ) - 0| < |(0 : ℚ) - 0| ∧ (0 : ℚ) = min 0 10 ∧ (10 : ℚ) = max 0 10) ∧
    ¬ |(4 : ℚ) - 0| < |(4 : ℚ) - 0| ∧
    (¬ ((0 : ℚ) = 1 ∧ (0 : ℚ) = 10) ∧ |(1 : ℚ) - 0| < |(10 : ℚ) - 0|) := by norm_num [abs]

theorem witness_WuGradientIsDefined :
    ¬ ((0 : ℚ) = 1 ∧ (0 : ℚ) = 10) ∧ isSteep 0 0 1 10 = true ∧ isSteep 0 0 4 4 = false ∧ isSteep 0 0 10 0 = false := by
  decide +kernel

/-- A line of slope 1, which is not steep, and a vertical one. -/
theorem witness_WuMainLoopFollowsTheLine :
    ((0 : ℚ) < 4 ∧ |(4 : ℚ) - 0| ≤ 4 - 0) ∧ (1 : ℚ) < 5 ∧ |(2 : ℚ) - 2| < 5 - 1 := by norm_num [abs]

/-- A 1 by 1 Indexed8 buffer and draws that miss it by one pixel; the last two have its pixel on their lists, with weight 0. -/
theorem witness_DrawingOutsideChangesNothing :
    let s := indexed 1 1 0 [] []
    s.bound = true ∧ (3 : Word) ≠ 1 ∧ (∀ p ∈ bresPixels (1 : Word).toInt (0 : Word).toInt (3 : Word).toInt (0 : Word).toInt,
        inBounds s p.1 p.2 = false) ∧
      (∀ p ∈ pointSplats (q16 0x18000) (q16 0x8000), p.w ≠ 0 → inBounds s p.x p.y = false) ∧
      (∃ p ∈ pointSplats (q16 0x18000) (q16 0x8000), inBounds s p.x p.y = true) ∧
      (∀ p ∈ aalineSplats (q16 0) (q16 0xFFFF0000) (q16 0x20000) (q16 0xFFFF0000), p.w ≠ 0 → inBounds s p.x p.y = false) ∧
      (∃ p ∈ aalineSplats (q16 0) (q16 0xFFFF0000) (q16 0x20000) (q16 0xFFFF0000), inBounds s p.x p.y = true) := by
  decide +kernel

/-- Draws that reach a 1 by 1 Indexed8 buffer, and buffers for each of the three faults: no byte, no palette, a good palette. -/
theorem witness_DrawingOnIndexed8IsRefused :
    (∀ s ∈ [indexed 1 0 0 [] [], indexed 1 1 0 [] [], indexed 1 1 1 [0] []],
      s.bound = true ∧ s.format = .indexed8 ∧ (2 : Word) ≠ 0 ∧
        (∃ p ∈ bresPixels (0 : Word).toInt (0 : Word).toInt (2 : Word).toInt (0 : Word).toInt, inBounds s p.1 p.2 = true) ∧
        (pointSplats (q16 0) (q16 0)).find? (accesses s) = some { x := 0, y := 0, w := 1 / 4 } ∧
        (aalineSplats (q16 0) (q16 0) (q16 0x20000) (q16 0)).find? (accesses s) = some { x := 0, y := 0, w := 1 / 2 }) ∧
    ((indexed 1 0 0 [] []).dlen.toNat < 0 + 1 ∧
      (indexed 1 1 0 [] []).plen.toNat ≤ (memRead (indexed 1 1 0 [] []).pmem 0).toNat ∧
      (memRead (indexed 1 1 1 [0] []).pmem 0).toNat < (indexed 1 1 1 [0] []).plen.toNat) := by decide +kernel

/-- An illegal header, and a command that faults. -/
theorem witness_RaiseRecordsTheFault :
    (pushed [0]).fault = false ∧ (∃ t, step (pushed [0]) = .next t ∧ t.fault = true) ∧
      ∃ t, step (pushed [0x00000401]) = .next t ∧ t.fault = true := ⟨rfl, ⟨_, rfl, rfl⟩, _, rfl, rfl⟩

/-- A command that faults with nothing written, and a line whose second pixel lies outside an undersized buffer. -/
theorem witness_FaultsArePrecise :
    (State.reset.fault = false ∧ ∃ t, exec (.getpixel 0 0) State.reset = .next t ∧ t.fault = true ∧ isDraw (.getpixel 0 0) = false) ∧
    (isDraw (.drawbres 0 0 2 0 7) = true ∧
      (nextOf (exec (.drawbres 0 0 2 0 7) (buffer .rgb24 2 1 3 3 []))).map (fun t => (t.fault, t.errcode, t.pmem)) =
        some (true, 9, [(0, 7)])) := ⟨⟨rfl, _, rfl, rfl, rfl⟩, rfl, by decide +kernel⟩

/-- A faulted engine with a word to pop. -/
theorem witness_FaultedEngineTakesNoStep :
    (raise .noBuffer (outPush 8 State.reset)).fault = true ∧
      ∃ v u, hostPop (raise .noBuffer (outPush 8 State.reset)) = some (v, u) := ⟨rfl, _, _, rfl⟩

theorem witness_PixelCommandsKeepTheBuffer :
    isConstruction (.setpixel 1 0 7) = false ∧ ∃ t, exec (.setpixel 1 0 7) direct = .next t := ⟨rfl, _, rfl⟩

theorem witness_CommandsOnlyAppendToOut :
    (∃ t, exec (.getpixel 1 0) direct = .next t ∧ t.out ≠ direct.out) ∧ (outPush 2 (outPush 1 direct)).out = [1, 2] :=
  ⟨⟨_, rfl, by decide⟩, rfl⟩

/-- A fault on a well-formed buffer. -/
theorem witness_WellFormedBuffersNeverAccessFault :
    WellFormedBuffer direct ∧ direct.fault = false ∧ ∃ t, exec (.create 9 1 1) direct = .next t ∧ t.fault = true :=
  ⟨witness_direct_buffer.1.1, rfl, _, rfl, rfl⟩

/-- Two buffers that differ in a padding byte. -/
theorem witness_PaddingIsNeverObserved :
    isPixelCommand (.setpixel 1 0 7) = true ∧ DirectBuffer direct ∧ SamePixels direct (setPmem [(6, 9)] direct) ∧
      (∃ s', exec (.setpixel 1 0 7) direct = .next s') ∧ ∃ t', exec (.setpixel 1 0 7) (setPmem [(6, 9)] direct) = .next t' := by
  refine ⟨rfl, witness_direct_buffer.1, ⟨rfl, fun x y a hb ha => ?_⟩, ⟨_, rfl⟩, _, rfl⟩
  obtain ⟨-, hlt⟩ := ha
  obtain ⟨hx0, hy0, hx, hy⟩ := inBounds_iff.mp hb
  have hx : x < 2 := hx
  have hy : y < 1 := hy
  obtain rfl : y = 0 := by omega
  have ho : pixelOffset direct x 0 = 3 * x.toNat := by simp [pixelOffset, direct, buffer, formatBytes]
  have hd : directBytes direct.format = 3 := rfl
  have : (6 : Nat) ≠ a := by omega
  change memRead [(6, 9)] a = memRead [] a
  simp [memRead, this]

theorem witness_StepRunsTheDecodedCommand :
    (pushed [0x00000301]).fault = false ∧ decode (pushed [0x00000301]).cfg ((pushed [0x00000301]).stream.drop 0) = .packet (.bpp 3) 1 := by
  decide

theorem witness_IllegalHeadersRaise :
    (pushed [0x00010021]).fault = false ∧ (pushed [0x00010021]).stream.drop 0 = 0x00010021#32 :: [] ∧
      selectRow 0x00010021#32 = none := by decide

/-- The first illegal ratio and the first illegal palette length. -/
theorem witness_IllegalOperandsRaise :
    65536 < (0x00010001 : Word).toNat ∧ (pushed [0x22, 0, 0, 0, 0x00010001]).stream.drop 0 = 0x22#32 :: 0 :: 0 :: 0 :: 0x00010001#32 :: [] ∧
      256 < (257 : BitVec 9).toNat ∧
      (pushed [0x01010011, 0, 0, 0, 0]).stream.drop 0 =
        ((0 : BitVec 7) ++ (257 : BitVec 9) ++ (0 : BitVec 8) ++ (0x11 : BitVec 8)) :: 0 :: 0 :: 0 :: 0 :: [] ∧
      decode Config.pxc1 [0x22, 0, 0, 0, 0x00010001] = .illegal .ratioAboveOne ∧ selectRow 0x22#32 ≠ none := by decide

/-- A packet without its last word: of one word, of five, and of a WRAP's payload. -/
theorem witness_PartialPacketsWait :
    (WellFormed Config.pxc1 (.bpp 3) = true ∧ 0 < (encode (.bpp 3)).length) ∧
    (WellFormed Config.pxc1 (.blendpixel 0 0 0 0x10000) = true ∧ 4 < (encode (.blendpixel 0 0 0 0x10000)).length) ∧
    (WellFormed Config.pxc1 (.wrap 0 1 1 1 5 5 [0] [0, 0]) = true ∧ 7 < (encode (.wrap 0 1 1 1 5 5 [0] [0, 0])).length) := by decide

/-- A WRAP with a payload and one that fails its checks. -/
theorem witness_DecodeOfEncode :
    WellFormed Config.pxc1 (.wrap 0 1 1 1 5 5 [0] [0, 0]) = true ∧ WellFormed Config.pxc1 (.wrap 9 256 0 0 0 0 [] []) = true := by decide

theorem witness_EncodeOfDecode : decode Config.pxc1 [0x20, 1, 2, 3] = .packet (.getpixel 1 2) 3 := by decide

theorem witness_StepKeepsTheInvariant :
    Inv (pushed [0x00000301]) ∧ ∃ t, step (pushed [0x00000301]) = .next t := by
  refine ⟨⟨by decide, by decide, ?_, .inl ⟨rfl, rfl⟩, by decide⟩, _, rfl⟩
  intro h
  cases h

/-- An offset past the map, and one inside it that is no multiple of 4. -/
theorem witness_CsrPortReadsTheMap :
    0x20 ∉ [0x00, 0x04, 0x08, 0x0C, 0x10, 0x14, 0x18, 0x1C] ∧ 2 ∉ [0x00, 0x04, 0x08, 0x0C, 0x10, 0x14, 0x18, 0x1C] := by
  decide

end Sys2Proof.Tests
end

section
/-!
SUPPORT. What the host sees of the state: the fields of `STATUS` (spec/10_state.md R12), the CSR map (R22) and reset (R25).
-/

namespace Sys2Proof.Machine

/-! ## The fields of STATUS (R12) -/

section
variable (bound fault : Bool) (errcode : BitVec 4)

@[simp] theorem statusWord_bound : (statusWord bound fault errcode).extractLsb' 0 1 = BitVec.ofBool bound :=
  BitVec.extractLsb'_append_eq_right

@[simp] theorem statusWord_fault : (statusWord bound fault errcode).extractLsb' 1 1 = BitVec.ofBool fault := by
  rw [statusWord, BitVec.extractLsb'_append_eq_of_le (by omega)]
  exact BitVec.extractLsb'_append_eq_right

/-- The fields above `FAULT` lie in the part of the word without its two low bits. -/
theorem statusWord_above_fault {start : Nat} (h : 2 ≤ start) (len : Nat) :
    (statusWord bound fault errcode).extractLsb' start len =
      ((0 : BitVec 24) ++ errcode ++ (0 : BitVec 2)).extractLsb' (start - 2) len := by
  rw [statusWord, BitVec.extractLsb'_append_eq_of_le (by omega), BitVec.extractLsb'_append_eq_of_le (by omega),
    Nat.sub_sub]

@[simp] theorem statusWord_reserved_low : (statusWord bound fault errcode).extractLsb' 2 2 = 0 := by
  rw [statusWord_above_fault _ _ _ (by omega)]
  exact BitVec.extractLsb'_append_eq_right

@[simp] theorem statusWord_errcode : (statusWord bound fault errcode).extractLsb' 4 4 = errcode := by
  rw [statusWord_above_fault _ _ _ (by omega), BitVec.extractLsb'_append_eq_of_le (by omega)]
  exact BitVec.extractLsb'_append_eq_right

@[simp] theorem statusWord_reserved_high : (statusWord bound fault errcode).extractLsb' 8 24 = 0 := by
  rw [statusWord_above_fault _ _ _ (by omega), BitVec.extractLsb'_append_eq_of_le (by omega)]
  exact BitVec.extractLsb'_append_eq_left

end

/-! ## The CSR map (R22) -/

section
variable (s : State)

@[simp] theorem csrRead_status : csrRead s 0x00 = statusWord s.bound s.fault s.errcode := rfl
@[simp] theorem csrRead_wcnt : csrRead s 0x04 = wcnt s := rfl
@[simp] theorem csrRead_format : csrRead s 0x08 = (formatCode s.format).setWidth 32 := rfl
@[simp] theorem csrRead_width : csrRead s 0x0C = s.width := rfl
@[simp] theorem csrRead_height : csrRead s 0x10 = s.height := rfl
@[simp] theorem csrRead_stride : csrRead s 0x14 = s.stride := rfl
@[simp] theorem csrRead_plen : csrRead s 0x18 = s.plen.setWidth 32 := rfl
@[simp] theorem csrRead_dlen : csrRead s 0x1C = s.dlen := rfl

/-- Every offset outside the map reads as 0 (R22). -/
theorem csrRead_of_unmapped {n : Nat} (h : n ∉ [0x00, 0x04, 0x08, 0x0C, 0x10, 0x14, 0x18, 0x1C]) : csrRead s n = 0 := by
  unfold csrRead
  split
  case h_9 => rfl
  all_goals exact absurd (by decide) h

theorem toNat_wcnt : (wcnt s).toNat = s.pos % 2 ^ 32 := BitVec.toNat_ofNat ..

end

/-! ## Reset (R25) -/

/-- The state of reset has the values of R25 for any parameters of the machine. -/
theorem afterReset_reset_withCfg (cfg : Config) : AfterReset { State.reset with cfg := cfg } :=
  ⟨rfl, rfl, rfl, rfl, rfl, rfl, rfl, rfl, rfl, rfl, rfl, rfl⟩

/-- A host reset leaves the state of R25, from any state. -/
theorem afterReset_hostReset (s : State) : AfterReset (hostReset s) := afterReset_reset_withCfg s.cfg

@[simp] theorem hostReset_cfg (s : State) : (hostReset s).cfg = s.cfg := rfl

/-! ## The obligations -/

/-- Settles O58: `State.reset` is the reset state for its own parameters, and the host's reset is the one for those of the
machine it acts on (R26). -/
theorem resetLeavesTheSpecifiedState : Obligations.ResetLeavesTheSpecifiedState :=
  ⟨afterReset_reset_withCfg State.reset.cfg, fun s => ⟨afterReset_hostReset s, hostReset_cfg s⟩⟩

/-- Settles O60: the fields of `STATUS` one by one, the narrow registers by their zero extension to 32 bits, and the offsets
outside the map. -/
theorem csrPortReadsTheMap : Obligations.CsrPortReadsTheMap := by
  intro s
  refine ⟨?status, ?wcnt, ?format, csrRead_width s, csrRead_height s, csrRead_stride s, ?plen, csrRead_dlen s,
    fun n => csrRead_of_unmapped s⟩
  case status =>
    rw [csrRead_status]
    exact ⟨statusWord_bound .., statusWord_fault .., statusWord_reserved_low .., statusWord_errcode ..,
      statusWord_reserved_high ..⟩
  case wcnt => rw [csrRead_wcnt, toNat_wcnt]
  case format => rw [csrRead_format, BitVec.toNat_setWidth_of_le (by omega)]
  case plen => rw [csrRead_plen, BitVec.toNat_setWidth_of_le (by omega)]

end Sys2Proof.Machine
end

section
/-!
SUPPORT. Which packets raise `IllegalCommand`: the headers that match no row of the opcode map (spec/30_encoding.md R56), and
the two operand values that are illegal as an encoding (R57).
-/

namespace Sys2Proof.Machine

/-! ## Legal headers (R55, R56) -/

/-- The fields that must be 0 for the header's opcode are 0 (R51, R56). -/
def MustBeZeroFieldsZero (w : Word) : Prop :=
  w.extractLsb' 25 7 = 0 ∧ (w.extractLsb' 0 8 ≠ 0x11 → plenField w = 0) ∧
    (w.extractLsb' 0 8 ∉ ([0x01, 0x02, 0x10, 0x11] : List (BitVec 8)) → fmtField w = 0)

/-- The pattern of a row holds its opcode byte and nothing else (R55). -/
theorem pattern_eq_rowOpcode : ∀ row ∈ opcodeMap, row.pattern = (0 : BitVec 24) ++ rowOpcode row := by decide

/-- The three masks of the opcode map and the opcodes that have each (R55). -/
theorem mask_cases : ∀ row ∈ opcodeMap,
    (row.mask = 0xFFFF00FF#32 ∧ rowOpcode row ≠ 0x11 ∧
      rowOpcode row ∈ ([0x01, 0x02, 0x10, 0x11] : List (BitVec 8))) ∨
    (row.mask = 0xFE0000FF#32 ∧ rowOpcode row = 0x11) ∨
    (row.mask = 0xFFFFFFFF#32 ∧ rowOpcode row ∉ ([0x01, 0x02, 0x10, 0x11] : List (BitVec 8))) := by decide

/-- A header matches a row when it has the row's opcode byte and its fields that must be 0 are 0. -/
theorem matches_row_iff {row : OpcodeRow} (h : row ∈ opcodeMap) (w : Word) :
    w &&& row.mask = row.pattern ↔ w.extractLsb' 0 8 = rowOpcode row ∧ MustBeZeroFieldsZero w := by
  have hp := pattern_eq_rowOpcode row h
  unfold MustBeZeroFieldsZero
  obtain ⟨hm, hne, hmem⟩ | ⟨hm, hw⟩ | ⟨hm, hmem⟩ := mask_cases row h
  · rw [hm, hp, and_fmt_mask]
    refine and_congr_right fun ho => ?_
    rw [ho]
    exact ⟨fun ⟨hplen, hres⟩ => ⟨hres, fun _ => hplen, fun hn => absurd hmem hn⟩,
      fun ⟨hres, hplen, _⟩ => ⟨hplen hne, hres⟩⟩
  · rw [hm, hp, and_wrap_mask]
    refine and_congr_right fun ho => ?_
    rw [ho, hw]
    exact ⟨fun hres => ⟨hres, fun hn => absurd rfl hn, fun hn => absurd (by decide) hn⟩, fun ⟨hres, _⟩ => hres⟩
  · rw [hm, hp, and_ones_mask]
    refine and_congr_right fun ho => ?_
    rw [ho]
    have hne : rowOpcode row ≠ 0x11 := fun hw => hmem (by rw [hw]; decide)
    exact ⟨fun ⟨hfmt, hplen, hres⟩ => ⟨hres, fun _ => hplen, fun _ => hfmt⟩,
      fun ⟨hres, hplen, hfmt⟩ => ⟨hfmt hmem, hplen hne, hres⟩⟩

/-- The ten opcodes of the opcode map (R55). -/
theorem opcodeMap_opcodes :
    opcodeMap.map rowOpcode = [0x01, 0x02, 0x10, 0x11, 0x20, 0x21, 0x22, 0x30, 0x31, 0x32] := by decide

/-- A header is illegal when its opcode is no row's, or a field that must be 0 is not (R56). -/
theorem selectRow_eq_none_iff (w : Word) :
    selectRow w = none ↔ ¬ (w.extractLsb' 0 8 ∈ opcodeMap.map rowOpcode ∧ MustBeZeroFieldsZero w) := by
  rw [Option.eq_none_iff_forall_ne_some, ← not_exists, not_iff_not]
  constructor
  · rintro ⟨row, hrow⟩
    obtain ⟨hmem, hw⟩ := selectRow_eq_some_iff.mp hrow
    obtain ⟨ho, hz⟩ := (matches_row_iff hmem w).mp hw
    exact ⟨List.mem_map.mpr ⟨row, hmem, ho.symm⟩, hz⟩
  · rintro ⟨ho, hz⟩
    obtain ⟨row, hmem, ho⟩ := List.mem_map.mp ho
    exact ⟨row, selectRow_eq_some_iff.mpr ⟨hmem, (matches_row_iff hmem w).mpr ⟨ho.symm, hz⟩⟩⟩

/-! ## Illegal operands (R57) -/

/-- A WRAP with its fixed words is illegal only by its `PLEN` (R57(b)). -/
theorem decodeWrap_illegal_iff {cfg : Config} {w0 : Word} {ops : List Word} {why : IllegalWhy} :
    decodeWrap cfg w0 ops = .illegal why ↔ why = .paletteTooLong ∧ 256 < (plenField w0).toNat := by
  by_cases h : 256 < (plenField w0).toNat
  · have : decodeWrap cfg w0 ops = .illegal .paletteTooLong := if_pos h
    rw [this, Decoded.illegal.injEq]
    exact ⟨fun e => ⟨e.symm, h⟩, fun e => e.1.symm⟩
  · refine iff_of_false (fun hd => ?_) fun e => h e.2
    unfold decodeWrap at hd
    rw [if_neg h] at hd
    split at hd
    · cases hd
    · dsimp only at hd
      split at hd <;> cases hd

/-- With the fixed words there, the only illegal operands are a BLENDPIXEL ratio above 1 and a WRAP `PLEN` above 256 (R57). -/
theorem decodeOperands_illegal_iff {cfg : Config} {op : Opcode} {w0 : Word} {ops : List Word} {why : IllegalWhy} :
    decodeOperands cfg op w0 ops = .illegal why ↔
      (op = .blendpixel ∧ why = .ratioAboveOne ∧ 65536 < (operand ops 4).toNat) ∨
        (op = .wrap ∧ why = .paletteTooLong ∧ 256 < (plenField w0).toNat) := by
  cases op
  case wrap => simpa [decodeOperands] using decodeWrap_illegal_iff
  case blendpixel =>
    by_cases h : 65536 < (operand ops 4).toNat
    · simp [decodeOperands, h, eq_comm]
    · simp [decodeOperands, h]
  all_goals simp [decodeOperands]

/-- A packet with a legal header is illegal when its fixed words are there and its operands are illegal (R57, R60). -/
theorem decode_illegal_operands_iff {cfg : Config} {w0 : Word} {ops : List Word} {row : OpcodeRow}
    {why : IllegalWhy} (h : selectRow w0 = some row) :
    decode cfg (w0 :: ops) = .illegal why ↔
      row.words ≤ ops.length + 1 ∧ decodeOperands cfg row.op w0 ops = .illegal why := by
  by_cases hl : row.words ≤ ops.length + 1
  · rw [decode_whole h hl, and_iff_right hl]
  · rw [decode_short h (Nat.not_le.mp hl)]
    exact iff_of_false nofun fun hd => hl hd.1

/-- The row of BLENDPIXEL selects one header only and has five words. -/
theorem blendpixel_row : ∀ row ∈ opcodeMap, row.op = .blendpixel →
    row.mask = 0xFFFFFFFF#32 ∧ row.pattern = 0x00000022#32 ∧ row.words = 5 := by decide

/-- The row of WRAP has opcode `0x11` and five words. -/
theorem wrap_row : ∀ row ∈ opcodeMap, row.op = .wrap → rowOpcode row = 0x11 ∧ row.words = 5 := by decide

/-! ## What an illegal packet does (R56, R57) -/

/-- A step on an illegal packet records `IllegalCommand` and changes nothing else. -/
theorem step_illegal {s : State} {why : IllegalWhy} (hf : s.fault = false)
    (hd : decode s.cfg (s.stream.drop s.pos) = .illegal why) :
    step s = .next { s with fault := true, errcode := 4 } := by
  simp [step, hf, fetch, pending, hd, execIllegal, raise_eq, errorCode]

/-! ## The obligations -/

/-- Settles O51: a header selects a row when it matches one, and each row's mask fixes the opcode byte and the fields that must
be 0 for it; the decoder asks for no further word of a header that selects none. -/
theorem illegalHeadersRaise : Obligations.IllegalHeadersRaise := by
  refine ⟨fun w0 => ?_, fun s w0 rest hf hs hrow => step_illegal hf (hs ▸ decode_illegal hrow)⟩
  rw [selectRow_eq_none_iff, opcodeMap_opcodes, MustBeZeroFieldsZero]
  simp only [not_and_or, Classical.not_imp]
  rfl

/-- Settles O52: the decoder's two tests on operands, and the rows they stand in. -/
theorem illegalOperandsRaise : Obligations.IllegalOperandsRaise := by
  refine ⟨?ratio, ?plen, ?only⟩
  case ratio =>
    intro s x y color ratio rest hf hr hs
    obtain ⟨row, hrow, hop, hwords⟩ : ∃ row, selectRow 0x22#32 = some row ∧ row.op = .blendpixel ∧ row.words = 5 :=
      ⟨_, rfl, rfl, rfl⟩
    refine step_illegal hf (why := .ratioAboveOne) ?_
    rw [hs, decode_illegal_operands_iff hrow, decodeOperands_illegal_iff]
    exact ⟨by simp [hwords], .inl ⟨hop, rfl, hr⟩⟩
  case plen =>
    intro s fmt plen w h stride len rest hf hp hs
    obtain ⟨-, -, hplen, -⟩ := header_fields 0x11 fmt plen
    obtain ⟨row, hrow, hop, hwords⟩ :
        ∃ row, selectRow (header 0x11 fmt plen) = some row ∧ row.op = .wrap ∧ row.words = 5 :=
      ⟨{ op := .wrap, mask := 0xFE0000FF#32, pattern := 0x00000011#32, words := 5 },
        selectRow_wrap_header (by decide) rfl rfl fmt plen, rfl, rfl⟩
    refine step_illegal hf (why := .paletteTooLong) ?_
    rw [hs, ← header, decode_illegal_operands_iff hrow, decodeOperands_illegal_iff, hplen]
    exact ⟨by simp [hwords], .inr ⟨hop, rfl, hp⟩⟩
  case only =>
    intro cfg w0 ops why hd hsel
    obtain ⟨row, hrow⟩ := Option.ne_none_iff_exists'.mp hsel
    obtain ⟨hmem, hw⟩ := selectRow_eq_some_iff.mp hrow
    obtain ⟨hl, hops⟩ := (decode_illegal_operands_iff hrow).mp hd
    obtain ⟨hop, -, hr⟩ | ⟨hop, -, hp⟩ := decodeOperands_illegal_iff.mp hops
    · obtain ⟨hmask, hpat, hwords⟩ := blendpixel_row row hmem hop
      rw [hmask, hpat] at hw
      exact .inl ⟨BitVec.and_allOnes.symm.trans hw, by omega, hr⟩
    · obtain ⟨hopc, hwords⟩ := wrap_row row hmem hop
      exact .inr ⟨(opcode_of_match hmem hw).trans hopc, by omega, hp⟩

end Sys2Proof.Machine
end

section
/-!
SUPPORT. The format policy seen from outside: what `BytesPerPixel` answers for an 8-bit format code (spec/40_format_policy.md
R70), and the step that BPP makes of the answer (R72).
-/

namespace Sys2Proof.Machine

/-! ## `BytesPerPixel` (R70) -/

/-- The code of a format has that format's bytes per pixel. -/
@[simp] theorem bytesPerPixel_formatCode (f : PixelFormat) :
    bytesPerPixel ((formatCode f).setWidth 8) = .ok (formatBytes f) := by
  rw [bytesPerPixel, lookupFormat_formatCode]
  rfl

/-- Codes 4 to 255 have no bytes per pixel. -/
theorem bytesPerPixel_of_ge {fmt : BitVec 8} (h : 4 ≤ fmt.toNat) : bytesPerPixel fmt = .error .unsupportedFormat := by
  rw [bytesPerPixel, lookupFormat_of_ge h]
  rfl

/-! ## BPP (R72) -/

/-- BPP of a format's code pushes the format's bytes per pixel. -/
theorem exec_bpp_formatCode (f : PixelFormat) (s : State) :
    exec (.bpp ((formatCode f).setWidth 8)) s = .next (outPush (BitVec.ofNat 32 (formatBytes f)) s) := by
  rw [exec, execBpp, bytesPerPixel_formatCode, outcome_done]

/-- BPP of a code that names no format raises `UnsupportedFormat`. -/
theorem exec_bpp_of_ge {fmt : BitVec 8} (h : 4 ≤ fmt.toNat) (s : State) :
    exec (.bpp fmt) s = .next (raise .unsupportedFormat s) := by
  rw [exec, execBpp, bytesPerPixel_of_ge h, outcome_raised]

/-! ## The obligation -/

/-- Settles O1: codes 0 to 3 are the codes of the four formats, in the order of R54, and no other code names one. -/
theorem bppPushesBytesPerPixel : Obligations.BppPushesBytesPerPixel := fun s =>
  ⟨exec_bpp_formatCode .indexed8 s, exec_bpp_formatCode .rgb24 s, exec_bpp_formatCode .argb32 s,
    exec_bpp_formatCode .argb64 s, fun _ hge => exec_bpp_of_ge hge s⟩

end Sys2Proof.Machine
end

section
/-!
SUPPORT. What `Mix` computes (spec/42_pixel_access.md R108): the point it takes the floor of lies between the two channels, so
the floor is a byte and no wrap happens; the laws of R108 follow from that.
-/

namespace Sys2Proof.Machine

/-! ## The point between two channels -/

/-- The convex combination of two channels whose floor `Mix` takes (R108). -/
def mixPoint (o c : Byte) (r : ℚ) : ℚ := (1 - r) * (o.toNat : ℚ) + r * (c.toNat : ℚ)

theorem mix_eq_ofInt_floor (o c : Byte) (r : ℚ) : mix o c r = BitVec.ofInt 8 ⌊mixPoint o c r⌋ := rfl

@[simp] theorem mixPoint_self (o : Byte) (r : ℚ) : mixPoint o o r = o.toNat :=
  Convex.combo_self (sub_add_cancel 1 r) (o.toNat : ℚ)

@[simp] theorem mixPoint_one (o c : Byte) : mixPoint o c 1 = c.toNat := by simp [mixPoint]

theorem min_le_mixPoint (o c : Byte) {r : ℚ} (h0 : 0 ≤ r) (h1 : r ≤ 1) :
    ((min o.toNat c.toNat : Nat) : ℚ) ≤ mixPoint o c r := by
  rw [Nat.cast_min]
  exact Convex.min_le_combo _ _ (sub_nonneg.mpr h1) h0 (sub_add_cancel 1 r)

theorem mixPoint_le_max (o c : Byte) {r : ℚ} (h0 : 0 ≤ r) (h1 : r ≤ 1) :
    mixPoint o c r ≤ ((max o.toNat c.toNat : Nat) : ℚ) := by
  rw [Nat.cast_max]
  exact Convex.combo_le_max _ _ (sub_nonneg.mpr h1) h0 (sub_add_cancel 1 r)

/-- Before ratio 1 the point has not reached a greater target: what is missing is `(1 - r) * (c - o)`. -/
theorem mixPoint_lt {o c : Byte} {r : ℚ} (hoc : o.toNat < c.toNat) (h1 : r < 1) : mixPoint o c r < c.toNat := by
  have hgap : 0 < (1 - r) * ((c.toNat : ℚ) - o.toNat) :=
    mul_pos (sub_pos.mpr h1) (sub_pos.mpr (Nat.cast_lt.mpr hoc))
  unfold mixPoint
  linarith

/-- With a ratio `k / 65536` the point is a quotient of natural numbers. -/
theorem mixPoint_div (o c : Byte) {k : Nat} (hk : k ≤ 65536) :
    mixPoint o c (k / 65536) = (((65536 - k) * o.toNat + k * c.toNat : Nat) : ℚ) / (65536 : Nat) := by
  unfold mixPoint
  push_cast [Nat.cast_sub hk]
  ring

/-! ## `Mix` (R108) -/

theorem min_le_floor_mixPoint (o c : Byte) {r : ℚ} (h0 : 0 ≤ r) (h1 : r ≤ 1) :
    ((min o.toNat c.toNat : Nat) : Int) ≤ ⌊mixPoint o c r⌋ :=
  Int.le_floor.mpr (min_le_mixPoint o c h0 h1)

theorem floor_mixPoint_le_max (o c : Byte) {r : ℚ} (h0 : 0 ≤ r) (h1 : r ≤ 1) :
    ⌊mixPoint o c r⌋ ≤ ((max o.toNat c.toNat : Nat) : Int) :=
  Int.cast_le.mp ((Int.floor_le _).trans (mixPoint_le_max o c h0 h1))

/-- No wrap: the floor lies between two bytes. -/
theorem toNat_mix (o c : Byte) {r : ℚ} (h0 : 0 ≤ r) (h1 : r ≤ 1) : ((mix o c r).toNat : Int) = ⌊mixPoint o c r⌋ := by
  have hlo := min_le_floor_mixPoint o c h0 h1
  have hhi := floor_mixPoint_le_max o c h0 h1
  have ho := o.isLt
  have hc := c.isLt
  rw [mix_eq_ofInt_floor, BitVec.toNat_ofInt]
  omega

theorem min_le_toNat_mix (o c : Byte) {r : ℚ} (h0 : 0 ≤ r) (h1 : r ≤ 1) : min o.toNat c.toNat ≤ (mix o c r).toNat :=
  Int.ofNat_le.mp (toNat_mix o c h0 h1 ▸ min_le_floor_mixPoint o c h0 h1)

theorem toNat_mix_le_max (o c : Byte) {r : ℚ} (h0 : 0 ≤ r) (h1 : r ≤ 1) : (mix o c r).toNat ≤ max o.toNat c.toNat :=
  Int.ofNat_le.mp (toNat_mix o c h0 h1 ▸ floor_mixPoint_le_max o c h0 h1)

theorem toNat_mix_lt {o c : Byte} {r : ℚ} (h0 : 0 ≤ r) (hoc : o.toNat < c.toNat) (h1 : r < 1) :
    (mix o c r).toNat < c.toNat := by
  rw [← Int.ofNat_lt, toNat_mix o c h0 h1.le]
  exact Int.floor_lt.mpr (mixPoint_lt hoc h1)

/-- A point that is itself a channel is the mix. -/
theorem mix_eq_of_mixPoint_eq {o c b : Byte} {r : ℚ} (h : mixPoint o c r = b.toNat) : mix o c r = b := by
  simp [mix_eq_ofInt_floor, h]

@[simp] theorem mix_self (o : Byte) (r : ℚ) : mix o o r = o := mix_eq_of_mixPoint_eq (mixPoint_self o r)

@[simp] theorem mix_one (o c : Byte) : mix o c 1 = c := mix_eq_of_mixPoint_eq (mixPoint_one o c)

/-- With a ratio `k / 65536`, the form of BLENDPIXEL's operand, the mix is an integer quotient. -/
theorem toNat_mix_div (o c : Byte) {k : Nat} (hk : k ≤ 65536) :
    (mix o c (k / 65536)).toNat = ((65536 - k) * o.toNat + k * c.toNat) / 65536 := by
  have h1 : (k : ℚ) / 65536 ≤ 1 := div_le_one_of_le₀ (by exact_mod_cast hk) (by norm_num)
  rw [← Int.natCast_inj, toNat_mix o c (by positivity) h1, mixPoint_div o c hk, Rat.floor_natCast_div_natCast,
    Int.natCast_ediv]

/-- The smallest positive ratio of BLENDPIXEL already lowers a channel above its target: the quotient of `65536 * o - (o - c)`. -/
theorem toNat_mix_one_div {o c : Byte} (hco : c.toNat < o.toNat) : (mix o c (1 / 65536)).toNat = o.toNat - 1 := by
  have hq := toNat_mix_div o c (k := 1) (by decide)
  rw [Nat.cast_one] at hq
  omega

/-! ## The obligation -/

/-- Settles O23: the floor is a byte because the point lies between two, and a ratio `k / 65536` makes it a quotient. -/
theorem mixLaws : Obligations.MixLaws :=
  ⟨fun o c _ h0 h1 => ⟨toNat_mix o c h0 h1, min_le_toNat_mix o c h0 h1, toNat_mix_le_max o c h0 h1, mix_self o _,
      toNat_mix_lt h0⟩,
    mix_one, fun o c _ hk => toNat_mix_div o c hk, fun _ _ => toNat_mix_one_div⟩

end Sys2Proof.Machine
end

section
/-!
SUPPORT. The point splat as a product (spec/44_wu.md R132): its nine weights are the products of two triples of tent weights, and
what a triple satisfies (R131) carries over to them: the range, the sum and the number of non-zero weights (R134).
-/

namespace Sys2Proof.Machine

/-! ## The tent weights of one axis (R131) -/

/-- The three weights of an axis, in ascending order of the pixels. -/
def TentWeights.toList (w : TentWeights) : List ℚ := [w.lower, w.middle, w.upper]

theorem TentWeights.sum_toList (w : TentWeights) : w.toList.sum = w.lower + w.middle + w.upper := by
  simp [TentWeights.toList, add_assoc]

/-- The weights share out one unit over the middle pixel and at most one of its neighbours. -/
structure TentWeights.SharesOneUnit (w : TentWeights) : Prop where
  nonneg : ∀ a ∈ w.toList, 0 ≤ a
  sum_eq_one : w.toList.sum = 1
  side_eq_zero : w.lower = 0 ∨ w.upper = 0

namespace TentWeights.SharesOneUnit

variable {w : TentWeights}

theorem le_one (h : w.SharesOneUnit) : ∀ a ∈ w.toList, a ≤ 1 :=
  h.sum_eq_one ▸ List.single_le_sum h.nonneg

theorem countP_ne_zero_le_two (h : w.SharesOneUnit) : w.toList.countP (· ≠ 0) ≤ 2 := by
  obtain hz | hz := h.side_eq_zero
  · rw [TentWeights.toList, hz, List.countP_cons_of_neg (by simp)]
    exact List.countP_le_length
  · have hperm : w.toList.Perm [w.upper, w.lower, w.middle] := List.perm_append_comm (l₁ := [w.lower, w.middle])
    rw [hperm.countP_eq, hz, List.countP_cons_of_neg (by simp)]
    exact List.countP_le_length

end TentWeights.SharesOneUnit

/-- At the pixel's centre the middle pixel has it all; left of it the lower neighbour has a share, right of it the upper (R131). -/
theorem tent_sharesOneUnit {f : ℚ} (h0 : 0 ≤ f) (h1 : f < 1) : (tent f).SharesOneUnit := by
  have hnonneg : ∀ a ∈ (tent f).toList, 0 ≤ a := by simp [tent_eq h0 h1, TentWeights.toList]
  obtain ⟨hsum, hside⟩ : (tent f).toList.sum = 1 ∧ ((tent f).lower = 0 ∨ (tent f).upper = 0) := by
    rw [TentWeights.sum_toList]
    unfold tent
    split
    · exact ⟨by norm_num, .inl rfl⟩
    · split
      · exact ⟨by ring, .inr rfl⟩
      · exact ⟨by ring, .inl rfl⟩
  exact ⟨hnonneg, hsum, hside⟩

theorem tent_fract_sharesOneUnit (v : ℚ) : (tent (v - ⌊v⌋)).SharesOneUnit :=
  tent_sharesOneUnit (Int.fract_nonneg v) (Int.fract_lt_one v)

/-! ## Products of two lists of weights -/

/-- Every weight of `xs` times every weight of `ys`, the weights of `ys` outermost. -/
def weightProducts (xs ys : List ℚ) : List ℚ := ys.flatMap fun b => xs.map (· * b)

theorem weightProducts_cons (xs : List ℚ) (b : ℚ) (ys : List ℚ) :
    weightProducts xs (b :: ys) = xs.map (· * b) ++ weightProducts xs ys := List.flatMap_cons

theorem mem_weightProducts {xs ys : List ℚ} {c : ℚ} :
    c ∈ weightProducts xs ys ↔ ∃ b ∈ ys, ∃ a ∈ xs, a * b = c := by
  simp [weightProducts]

theorem sum_weightProducts (xs ys : List ℚ) : (weightProducts xs ys).sum = xs.sum * ys.sum := by
  induction ys with
  | nil => simp [weightProducts]
  | cons b ys ih => rw [weightProducts_cons, List.sum_append, List.sum_map_mul_right, List.map_id', ih, List.sum_cons, mul_add]

/-- Scaling by a non-zero weight keeps the number of non-zero weights; scaling by 0 leaves none. -/
theorem countP_map_mul_ne_zero_le (xs : List ℚ) (b : ℚ) :
    (xs.map (· * b)).countP (· ≠ 0) ≤ xs.countP (· ≠ 0) * [b].countP (· ≠ 0) := by
  by_cases hb : b = 0
  · simp [hb]
  · simp [hb, List.countP_map, Function.comp_def]

theorem countP_weightProducts_ne_zero_le (xs ys : List ℚ) :
    (weightProducts xs ys).countP (· ≠ 0) ≤ xs.countP (· ≠ 0) * ys.countP (· ≠ 0) := by
  induction ys with
  | nil => simp [weightProducts]
  | cons b ys ih =>
    rw [weightProducts_cons, List.countP_append, ← List.singleton_append, List.countP_append, mul_add]
    exact Nat.add_le_add (countP_map_mul_ne_zero_le xs b) ih

/-! ## The weights of the splat (R132) -/

theorem pointSplats_weights (x0 y0 : ℚ) :
    (pointSplats x0 y0).map Splat.w = weightProducts (tent (x0 - ⌊x0⌋)).toList (tent (y0 - ⌊y0⌋)).toList := rfl

theorem pointSplats_weight_mem_unit {x0 y0 : ℚ} {p : Splat} (hp : p ∈ pointSplats x0 y0) : 0 ≤ p.w ∧ p.w ≤ 1 := by
  have hw := List.mem_map_of_mem (f := Splat.w) hp
  rw [pointSplats_weights] at hw
  obtain ⟨b, hb, a, ha, hab⟩ := mem_weightProducts.mp hw
  have hx := tent_fract_sharesOneUnit x0
  have hy := tent_fract_sharesOneUnit y0
  rw [← hab]
  exact ⟨mul_nonneg (hx.nonneg a ha) (hy.nonneg b hb), mul_le_one₀ (hx.le_one a ha) (hy.nonneg b hb) (hy.le_one b hb)⟩

theorem pointSplats_sum_weights (x0 y0 : ℚ) : ((pointSplats x0 y0).map Splat.w).sum = 1 := by
  rw [pointSplats_weights, sum_weightProducts, (tent_fract_sharesOneUnit x0).sum_eq_one,
    (tent_fract_sharesOneUnit y0).sum_eq_one, mul_one]

/-- At most two non-zero weights on each axis, so at most four products (R134). -/
theorem pointSplats_active_le_four (x0 y0 : ℚ) : ((pointSplats x0 y0).filter fun p => p.w ≠ 0).length ≤ 4 :=
  calc ((pointSplats x0 y0).filter fun p => p.w ≠ 0).length
    _ = ((pointSplats x0 y0).map Splat.w).countP (· ≠ 0) := by rw [List.countP_map, ← List.countP_eq_length_filter]; rfl
    _ ≤ _ := pointSplats_weights x0 y0 ▸ countP_weightProducts_ne_zero_le _ _
    _ ≤ 2 * 2 := Nat.mul_le_mul (tent_fract_sharesOneUnit x0).countP_ne_zero_le_two
        (tent_fract_sharesOneUnit y0).countP_ne_zero_le_two

/-! ## The obligation -/

/-- Settles O31: the nine weights are the products of two triples that each share out one unit over at most two pixels. -/
theorem pointCoverageIsOne : Obligations.PointCoverageIsOne := fun x0 y0 =>
  ⟨rfl, fun _ hp => pointSplats_weight_mem_unit hp, pointSplats_sum_weights x0 y0,
    (tent_fract_sharesOneUnit x0).side_eq_zero, (tent_fract_sharesOneUnit y0).side_eq_zero,
    pointSplats_active_le_four x0 y0⟩

end Sys2Proof.Machine
end

section
/-!
SUPPORT. Exchanging the endpoints of a line (spec/44_wu.md R141): the steepness does not depend on their order, and the ordering
of step 2 of R135 undoes the exchange unless the abscissas are equal, which only a single point's are along the primary axis.
-/

namespace Sys2Proof.Machine

/-! ## The Wu line -/

theorem isSteep_comm (x0 y0 x1 y1 : ℚ) : isSteep x0 y0 x1 y1 = isSteep x1 y1 x0 y0 := by
  rw [isSteep, isSteep, abs_sub_comm x1, abs_sub_comm y1]

/-- After step 2 of R135 both lines have the same endpoints. -/
theorem wuOrdered_comm {x0 x1 : ℚ} (h : x0 ≠ x1) (y0 y1 : ℚ) : wuOrdered x0 y0 x1 y1 = wuOrdered x1 y1 x0 y0 := by
  unfold wuOrdered
  obtain hlt | hgt := h.lt_or_gt
  · rw [if_neg hlt.not_gt, if_pos hlt]
  · rw [if_pos hgt, if_neg hgt.not_gt]

/-- A steep line has an extent along y (R135 (b)). -/
theorem ordinates_ne_of_steep {x0 y0 x1 y1 : ℚ} (h : isSteep x0 y0 x1 y1 = true) : y0 ≠ y1 := by
  rintro rfl
  have hlt : |x1 - x0| < |y0 - y0| := of_decide_eq_true h
  rw [sub_self, abs_zero] at hlt
  exact (abs_nonneg _).not_gt hlt

/-- A line that is not steep has an extent along x unless it is a point (R135 (b)). -/
theorem abscissas_ne_of_not_steep {x0 y0 x1 y1 : ℚ} (h : ¬ isSteep x0 y0 x1 y1 = true) (hne : ¬ (x0 = x1 ∧ y0 = y1)) :
    x0 ≠ x1 := by
  rintro rfl
  have hle : |y1 - y0| ≤ |x0 - x0| := not_lt.mp fun hlt => h (decide_eq_true hlt)
  rw [sub_self, abs_zero, abs_nonpos_iff, sub_eq_zero] at hle
  exact hne ⟨rfl, hle.symm⟩

theorem lineSplats_comm {x0 y0 x1 y1 : ℚ} (h : ¬ (x0 = x1 ∧ y0 = y1)) :
    lineSplats x0 y0 x1 y1 = lineSplats x1 y1 x0 y0 := by
  unfold lineSplats
  rw [isSteep_comm x1 y1]
  by_cases hs : isSteep x0 y0 x1 y1 = true
  · rw [if_pos hs, if_pos hs, wuOrdered_comm (ordinates_ne_of_steep hs)]
  · rw [if_neg hs, if_neg hs, wuOrdered_comm (abscissas_ne_of_not_steep hs h)]

theorem aalineSplats_comm (x0 y0 x1 y1 : ℚ) : aalineSplats x0 y0 x1 y1 = aalineSplats x1 y1 x0 y0 := by
  by_cases h : x0 = x1 ∧ y0 = y1
  · obtain ⟨rfl, rfl⟩ := h
    rfl
  · have h' : ¬ (x1 = x0 ∧ y1 = y0) := fun e => h ⟨e.1.symm, e.2.symm⟩
    rw [aalineSplats, aalineSplats, if_neg h, if_neg h', lineSplats_comm h]

theorem exec_drawaaline_comm (x0 y0 x1 y1 color : Word) (s : State) :
    exec (.drawaaline x0 y0 x1 y1 color) s = exec (.drawaaline x1 y1 x0 y0 color) s := by
  rw [exec, exec, execDrawaaline, execDrawaaline, aalineSplats_comm]

/-! ## The Bresenham line -/

/-- A Bresenham line whose abscissas do not ascend has no pixel (R121 (b)). -/
theorem bresPixels_of_le {x0 x1 : Int} (h : x1 ≤ x0) (y0 y1 : Int) : bresPixels x0 y0 x1 y1 = [] := by
  rw [bresPixels, Int.toNat_of_nonpos (sub_nonpos.mpr h), bresLoop]

/-! ## The obligation -/

/-- Settles O35: the Wu line orders its endpoints; the Bresenham line from (0, 0) to (1, 0) has a pixel, its reverse none. -/
theorem wuLineIsEndpointSymmetric : Obligations.WuLineIsEndpointSymmetric := by
  refine ⟨aalineSplats_comm, fun s x0 y0 x1 y1 color => exec_drawaaline_comm x0 y0 x1 y1 color s, 0, 0, 1, 0, ?_⟩
  rw [bresPixels_of_le zero_le_one]
  exact List.cons_ne_nil _ _

end Sys2Proof.Machine
end

section
/-!
SUPPORT. The faults of the commands that take a format (spec/60_exceptions.md R151, R152, R153, R163): what the checks of CREATE
and WRAP answer, in the order of R164, and who can record `UnsupportedFormat`.
-/

namespace Sys2Proof.Machine

/-! ## The checks of CREATE and WRAP (R82, R84, R164) -/

section
variable (cfg : Config) (f : PixelFormat) (w h stride len : Word)

/-- The checks of CREATE after the format's (R82). -/
theorem createChecks_formatCode :
    createChecks cfg ((formatCode f).setWidth 8) w h =
      if badDimensions w h then .error .invalidDimensions
      else if cfg.pmemBytes.val < createBytes f w h then .error .capacityExceeded
      else .ok f := by
  rw [createChecks, lookupFormat_formatCode]

/-- The checks of WRAP after the format's (R84). -/
theorem wrapChecks_formatCode :
    wrapChecks cfg ((formatCode f).setWidth 8) w h stride len =
      if badDimensions w h then .error .invalidDimensions
      else if (u32 len : Int) ≠ u32 stride * s32 h then .error .bufferSizeMismatch
      else if cfg.pmemBytes.val < u32 len then .error .capacityExceeded
      else .ok f := by
  rw [wrapChecks, lookupFormat_formatCode]

end

section
variable {cfg : Config} {fmt : BitVec 8} {f : PixelFormat} {w h stride len : Word}

theorem createChecks_of_ge (hge : 4 ≤ fmt.toNat) : createChecks cfg fmt w h = .error .unsupportedFormat := by
  rw [createChecks, lookupFormat_of_ge hge]

theorem wrapChecks_of_ge (hge : 4 ≤ fmt.toNat) : wrapChecks cfg fmt w h stride len = .error .unsupportedFormat := by
  rw [wrapChecks, lookupFormat_of_ge hge]

theorem createChecks_of_nonpos (hd : w.toInt ≤ 0 ∨ h.toInt ≤ 0) :
    createChecks cfg ((formatCode f).setWidth 8) w h = .error .invalidDimensions := by
  rw [createChecks_formatCode, if_pos (badDimensions_eq_true.mpr hd)]

theorem wrapChecks_of_nonpos (hd : w.toInt ≤ 0 ∨ h.toInt ≤ 0) :
    wrapChecks cfg ((formatCode f).setWidth 8) w h stride len = .error .invalidDimensions := by
  rw [wrapChecks_formatCode, if_pos (badDimensions_eq_true.mpr hd)]

variable (hw : 0 < w.toInt) (hh : 0 < h.toInt)
include hw hh

theorem createChecks_of_pos :
    createChecks cfg ((formatCode f).setWidth 8) w h =
      if cfg.pmemBytes.val < createBytes f w h then .error .capacityExceeded else .ok f := by
  rw [createChecks_formatCode, badDimensions_eq_false.mpr ⟨hw, hh⟩]
  rfl

theorem wrapChecks_of_length_ne (hlen : (len.toNat : Int) ≠ stride.toNat * h.toInt) :
    wrapChecks cfg ((formatCode f).setWidth 8) w h stride len = .error .bufferSizeMismatch := by
  rw [wrapChecks_formatCode, badDimensions_eq_false.mpr ⟨hw, hh⟩]
  exact if_pos hlen

theorem wrapChecks_of_length_eq (hlen : len.toNat = stride.toNat * h.toNat) :
    wrapChecks cfg ((formatCode f).setWidth 8) w h stride len =
      if cfg.pmemBytes.val < len.toNat then .error .capacityExceeded else .ok f := by
  have hlen' : (u32 len : Int) = u32 stride * s32 h := by
    have hpos : (h.toNat : Int) = s32 h := (toNat_of_toInt_pos hh).1
    rw [← hpos]
    exact_mod_cast hlen
  rw [wrapChecks_formatCode, badDimensions_eq_false.mpr ⟨hw, hh⟩, if_neg (not_not.mpr hlen')]
  rfl

end

/-! ## The commands on a failed check -/

section
variable {fmt : BitVec 8} {s : State} {w h stride len : Word} {e : ErrCode}

theorem exec_create_of_error (he : createChecks s.cfg fmt w h = .error e) :
    exec (.create fmt w h) s = .next (raise e s) := by
  rw [exec, execCreate, he, outcome_raised]

theorem exec_wrap_of_error (he : wrapChecks s.cfg fmt w h stride len = .error e) (plen : BitVec 9)
    (pal data : List Word) : exec (.wrap fmt plen w h stride len pal data) s = .next (raise e s) := by
  rw [exec, execWrap, he, outcome_raised]

/-- HASALPHA of a code that names no format raises `UnsupportedFormat`. -/
theorem exec_hasalpha_of_ge (hge : 4 ≤ fmt.toNat) (s : State) :
    exec (.hasalpha fmt) s = .next (raise .unsupportedFormat s) := by
  rw [exec, execHasalpha, hasAlpha, lookupFormat_of_ge hge]
  rfl

end

/-! ## Who records `UnsupportedFormat` (R151) -/

/-- The code a fault records names its cause (R150). -/
theorem raise_errcode_eq_iff {e e' : ErrCode} {s : State} : (raise e s).errcode = errorCode e' ↔ e = e' :=
  ⟨fun h => errorCode_injective h, fun h => congrArg errorCode h⟩

/-- A command that records `UnsupportedFormat` on an unfaulted state has an `FMT` operand that names no format. -/
theorem Effect.format_operand_of_unsupported {i : Instr} {s t : State} (h : Effect i s t) (hs : s.fault = false)
    (ht : t.fault = true) (hcode : t.errcode = errorCode .unsupportedFormat) :
    ∃ fmt, formatOperand i = some fmt ∧ 4 ≤ fmt.toNat := by
  cases h with
  | push | create | wrap | store => simp [hs] at ht
  | fault _ hu => exact hu (raise_errcode_eq_iff.mp hcode)
  | access => cases raise_errcode_eq_iff.mp hcode

theorem formatOperand_of_isPixelCommand {i : Instr} (h : isPixelCommand i = true) : formatOperand i = none := by
  cases i with
  | bpp | hasalpha | create | wrap => cases h
  | getpixel | setpixel | blendpixel | drawbres | drawpoint | drawaaline => rfl

@[simp] theorem retire_fault (n : Nat) (s : State) : (retire n s).fault = s.fault := by
  cases hf : s.fault with
  | false => rw [retire_of_no_fault hf]; exact hf
  | true => rw [retire_of_fault hf]; exact hf

@[simp] theorem retire_errcode (n : Nat) (s : State) : (retire n s).errcode = s.errcode := by
  cases hf : s.fault with
  | false => rw [retire_of_no_fault hf]
  | true => rw [retire_of_fault hf]

/-! ## The obligations -/

/-- Settles O3: the four commands fail at the lookup, their first check; for the converse, every effect of a command that records
code 1 comes with the operand, and an illegal packet records code 4. -/
theorem unsupportedFormatIsRaised : Obligations.UnsupportedFormatIsRaised := by
  refine ⟨?raised, ?pixel, ?command, ?step⟩
  case raised =>
    intro s fmt hge
    exact ⟨exec_bpp_of_ge hge s, exec_hasalpha_of_ge hge s, fun _ _ => exec_create_of_error (createChecks_of_ge hge),
      fun plen _ _ _ _ pal data => exec_wrap_of_error (wrapChecks_of_ge hge) plen pal data⟩
  case pixel =>
    intro i s t hi hs h ht hcode
    obtain ⟨fmt, hfmt, -⟩ := (exec_effect h).format_operand_of_unsupported hs ht hcode
    rw [formatOperand_of_isPixelCommand hi] at hfmt
    cases hfmt
  case command =>
    intro i s t hs h ht hcode
    exact (exec_effect h).format_operand_of_unsupported hs ht hcode
  case step =>
    intro s t hs h ht hcode
    obtain rfl | ⟨i, n, u, hd, hu, rfl⟩ := step_cases hs h
    · cases raise_errcode_eq_iff (e' := .unsupportedFormat).mp hcode
    · rw [retire_fault] at ht
      rw [retire_errcode] at hcode
      obtain ⟨fmt, hfmt, hge⟩ := hu.format_operand_of_unsupported hs ht hcode
      exact ⟨i, n, fmt, hd, hfmt, hge⟩

/-- Settles O7: after the format, the dimensions are the next check of both commands. -/
theorem invalidDimensionsIsRaised : Obligations.InvalidDimensionsIsRaised := fun _ _ _ _ hd =>
  ⟨exec_create_of_error (createChecks_of_nonpos hd),
    fun plen _ _ pal data => exec_wrap_of_error (wrapChecks_of_nonpos hd) plen pal data⟩

/-- Settles O8: the length is compared on integers, so nothing wraps. -/
theorem bufferSizeMismatchIsRaised : Obligations.BufferSizeMismatchIsRaised :=
  fun _ _ plen _ _ _ _ pal data hw hh hlen => exec_wrap_of_error (wrapChecks_of_length_ne hw hh hlen) plen pal data

/-- Settles O9: with the other checks passed, only the capacity is left. -/
theorem capacityExceededIsRaised : Obligations.CapacityExceededIsRaised := fun _ _ _ _ hw hh =>
  ⟨fun hcap => exec_create_of_error ((createChecks_of_pos hw hh).trans (if_pos hcap)),
    fun plen _ _ pal data hlen hcap =>
      exec_wrap_of_error ((wrapChecks_of_length_eq hw hh hlen).trans (if_pos hcap)) plen pal data⟩

end Sys2Proof.Machine
end

section
/-!
SUPPORT. The faults of the pixel and draw commands that come with nothing written: no buffer (spec/60_exceptions.md R158), an
index outside the palette (R160), a write to an Indexed8 buffer (R159) and a line with `x1 = x0` (R161).
-/

namespace Sys2Proof.Machine

/-! ## The buffer check (R158, R164) -/

/-- Every pixel and draw command checks for a buffer before anything else. -/
theorem exec_eq_needBuffer {i : Instr} (h : isPixelCommand i = true) (s : State) :
    ∃ k, exec i s = (needBuffer s k).outcome := by
  cases i with
  | bpp | hasalpha | create | wrap => cases h
  | getpixel | setpixel | blendpixel | drawbres | drawpoint | drawaaline => exact ⟨_, rfl⟩

theorem exec_of_unbound {i : Instr} {s : State} (h : isPixelCommand i = true) (hb : s.bound = false) :
    exec i s = .next (raise .noBuffer s) := by
  obtain ⟨k, hk⟩ := exec_eq_needBuffer h s
  rw [hk, needBuffer_unbound hb, outcome_raised]

/-! ## The offset of an in-bounds pixel given by operand words -/

/-- A signed word that is not negative is its own unsigned value. -/
theorem toNat_toInt_of_nonneg {w : Word} (h : 0 ≤ w.toInt) : w.toInt.toNat = w.toNat :=
  BitVec.toNat_toInt_of_msb w (BitVec.msb_eq_toInt.trans (decide_eq_false h.not_gt))

theorem pixelOffset_words {s : State} {x y : Word} (h : inBounds s x.toInt y.toInt = true) :
    pixelOffset s x.toInt y.toInt = s.stride.toNat * y.toNat + formatBytes s.format * x.toNat := by
  obtain ⟨hx, hy, -⟩ := inBounds_iff.mp h
  rw [pixelOffset, toNat_toInt_of_nonneg hx, toNat_toInt_of_nonneg hy]

theorem pixelOffset_words_indexed {s : State} {x y : Word} (hf : s.format = .indexed8)
    (h : inBounds s x.toInt y.toInt = true) :
    pixelOffset s x.toInt y.toInt = s.stride.toNat * y.toNat + x.toNat := by
  rw [pixelOffset_words h, hf, formatBytes, one_mul]

/-! ## Reading an Indexed8 pixel (R103) -/

section
variable {s : State} {x y : Int} (hf : s.format = .indexed8) (hin : inBounds s x y = true)
  (hd : pixelOffset s x y + 1 ≤ s.dlen.toNat)
include hf hin hd

/-- The read of an index byte inside the buffer, by whether the palette has the entry. -/
theorem getPixel_indexed_inside :
    getPixel s x y =
      if s.plen.toNat ≤ (memRead s.pmem (pixelOffset s x y)).toNat then .error .paletteLookup
      else .ok (colorOf (palEntry s.pal (memRead s.pmem (pixelOffset s x y)))) := by
  rw [getPixel_indexed hin hf, paletteRead, if_neg (by omega)]

theorem getPixel_of_index_ge (hi : s.plen.toNat ≤ (memRead s.pmem (pixelOffset s x y)).toNat) :
    getPixel s x y = .error .paletteLookup := by
  rw [getPixel_indexed_inside hf hin hd, if_pos hi]

theorem getPixel_of_index_lt (hi : (memRead s.pmem (pixelOffset s x y)).toNat < s.plen.toNat) :
    getPixel s x y = .ok (colorOf (palEntry s.pal (memRead s.pmem (pixelOffset s x y)))) := by
  rw [getPixel_indexed_inside hf hin hd, if_neg hi.not_ge]

end

/-! ## The commands on a bound buffer -/

theorem ratioOf_ne_zero {ratio : Word} (h : ratio ≠ 0) : ratioOf ratio ≠ 0 := by
  have hn : ratio.toNat ≠ 0 := fun h0 => h (BitVec.eq_of_toNat_eq h0)
  exact div_ne_zero (Nat.cast_ne_zero.mpr hn) (by norm_num)

section
variable {s : State} (hb : s.bound = true)
include hb

theorem exec_getpixel_of_error {x y : Word} {e : ErrCode} (hg : getPixel s x.toInt y.toInt = .error e) :
    exec (.getpixel x y) s = .next (raise e s) := by
  rw [exec, execGetpixel, needBuffer_bound hb, s32, s32, hg, outcome_raised]

theorem exec_setpixel_of_bound (x y color : Word) :
    exec (.setpixel x y color) s = (setPixel x.toInt y.toInt (colorOf color) s).outcome := by
  rw [exec, execSetpixel, needBuffer_bound hb, s32, s32]

theorem exec_blendpixel_of_bound (x y color ratio : Word) :
    exec (.blendpixel x y color ratio) s =
      (blend x.toInt y.toInt (colorOf color) (ratioOf ratio) s).outcome := by
  rw [exec, execBlendpixel, needBuffer_bound hb, s32, s32]

/-- BLENDPIXEL with a non-zero ratio ends in the fault of its read (R107). -/
theorem exec_blendpixel_of_read_error {x y : Word} {e : ErrCode} (hin : inBounds s x.toInt y.toInt = true)
    (hg : getPixel s x.toInt y.toInt = .error e) (color : Word) {ratio : Word} (hr : ratio ≠ 0) :
    exec (.blendpixel x y color ratio) s = .next (raise e s) := by
  rw [exec_blendpixel_of_bound hb, blend_active hin (ratioOf_ne_zero hr), hg, outcome_raised]

/-- BLENDPIXEL with a non-zero ratio that has read an Indexed8 pixel cannot write it (R105). -/
theorem exec_blendpixel_indexed_of_read {x y : Word} {old : Color} (hf : s.format = .indexed8)
    (hin : inBounds s x.toInt y.toInt = true) (hg : getPixel s x.toInt y.toInt = .ok old) (color : Word)
    {ratio : Word} (hr : ratio ≠ 0) :
    exec (.blendpixel x y color ratio) s = .next (raise .indexedWriteTarget s) := by
  rw [exec_blendpixel_of_bound hb, blend_active hin (ratioOf_ne_zero hr), hg]
  exact congrArg Ran.outcome (setPixel_indexed hin hf)

theorem exec_drawbres_of_degenerate (x y0 y1 color : Word) :
    exec (.drawbres x y0 x y1 color) s = .next (raise .degenerateLine s) := by
  rw [exec, execDrawbres, needBuffer_bound hb, if_pos (sub_self _), outcome_raised]

end

/-! ## The obligations -/

/-- Settles O13: the palette lacks the entry, and both commands stop at the failed read. -/
theorem paletteLookupIsRaised : Obligations.PaletteLookupIsRaised := by
  refine ⟨fun s x y hf hin hd hi => getPixel_of_index_ge hf hin hd hi, ?_⟩
  intro s x y hb hf hin hd hi
  rw [← pixelOffset_words_indexed hf hin] at hd hi
  have hg := getPixel_of_index_ge hf hin hd hi
  exact ⟨exec_getpixel_of_error hb hg, fun color _ hr => exec_blendpixel_of_read_error hb hin hg color hr⟩

/-- Settles O15: the buffer check is the first thing every one of the six commands does. -/
theorem noBufferIsRaised : Obligations.NoBufferIsRaised := fun _ _ hi hb => exec_of_unbound hi hb

/-- Settles O17: no write to an Indexed8 pixel passes; a blend comes to its write only after a good read. -/
theorem indexedWriteIsRefused : Obligations.IndexedWriteIsRefused := by
  refine ⟨fun s x y c hf hin => setPixel_indexed hin hf, ?_⟩
  intro s x y hb hf hin
  refine ⟨fun color => ?setpixel, fun hd hi color ratio hr => ?blendpixel⟩
  case setpixel => rw [exec_setpixel_of_bound hb, setPixel_indexed hin hf, outcome_raised]; rfl
  case blendpixel =>
    rw [← pixelOffset_words_indexed hf hin] at hd hi
    exact exec_blendpixel_indexed_of_read hb hf hin (getPixel_of_index_lt hf hin hd hi) color hr

/-- Settles O24: the test of `x1 - x0` comes before the loop. -/
theorem degenerateLineIsRaised : Obligations.DegenerateLineIsRaised := by
  rintro s x0 y0 x1 y1 color hb rfl
  exact exec_drawbres_of_degenerate hb x1 y0 y1 color

end Sys2Proof.Machine
end

section
/-!
SUPPORT. A faulted engine (spec/60_exceptions.md R156): it takes no step, and pushes and pops of the host leave it so.
-/

namespace Sys2Proof.Machine

theorem step_of_fault {s : State} (h : s.fault = true) : step s = .fault .halted := by
  rw [step, if_pos h]

theorem step_ne_next_of_fault {s : State} (h : s.fault = true) (t : State) : step s ≠ .next t := by
  rw [step_of_fault h]
  exact nofun

@[simp] theorem hostPushAll_fault (ws : List Word) (s : State) : (hostPushAll ws s).fault = s.fault := rfl
@[simp] theorem hostPushAll_pos (ws : List Word) (s : State) : (hostPushAll ws s).pos = s.pos := rfl

/-- A pop takes the oldest word of `OUT` and changes nothing else (R19). -/
theorem hostPop_eq_some {s u : State} {v : Word} (h : hostPop s = some (v, u)) :
    ∃ vs, s.out = v :: vs ∧ u = { s with out := vs } := by
  unfold hostPop at h
  split at h
  · cases h
  · next vs hout => cases h; exact ⟨vs, hout, rfl⟩

/-- Settles O44: `step` tests `FAULT` first, no host action but reset writes it, and reset leaves the state of R25. -/
theorem faultedEngineTakesNoStep : Obligations.FaultedEngineTakesNoStep := by
  intro s hf
  refine ⟨step_ne_next_of_fault hf, fun ws => ⟨?_, hostPushAll_pos ws s, step_ne_next_of_fault ?_⟩, ?pop, ?reset⟩
  · rw [hostPushAll_fault, hf]
  · rw [hostPushAll_fault, hf]
  case pop =>
    intro v u h
    obtain ⟨vs, -, rfl⟩ := hostPop_eq_some h
    exact ⟨hf, rfl, step_ne_next_of_fault hf⟩
  case reset =>
    obtain ⟨-, hbound, hfault, -, -, -, -, -, -, -, -, hstream⟩ := afterReset_hostReset s
    exact ⟨hfault, hstream, hbound⟩

end Sys2Proof.Machine
end

section
/-!
SUPPORT. Decoder and encoder undo each other (spec/30_encoding.md R50 to R60): what the decoder makes of the words of a
well-formed packet, whole or cut short, and what the words it took a packet from look like.
-/

namespace Sys2Proof.Machine

/-! ## The fixed words of a packet (R52, R55) -/

/-- The fixed words of a packet with this opcode, header included (R52). -/
def fixedWords : Opcode → Nat
  | .bpp | .hasalpha => 1
  | .create | .getpixel => 3
  | .setpixel | .drawpoint => 4
  | .wrap | .blendpixel => 5
  | .drawbres | .drawaaline => 6

/-- The opcode map gives each opcode its fixed words. -/
theorem row_words_eq_fixedWords : ∀ row ∈ opcodeMap, row.words = fixedWords row.op := by decide

theorem length_encode_wrap (fmt : BitVec 8) (plen : BitVec 9) (w h stride len : Word) (pal data : List Word) :
    (encode (.wrap fmt plen w h stride len pal data)).length = 5 + (pal.length + data.length) := by
  simp only [encode, List.length_append, List.length_cons, List.length_nil]
  omega

/-- The words of a command begin with a header from which the decoder goes on to the operands as soon as the fixed words are
there, and asks for more before. -/
theorem encode_eq_header_cons (cfg : Config) (i : Instr) :
    ∃ w0 ops, encode i = w0 :: ops ∧ fixedWords (opcodeOf i) ≤ ops.length + 1 ∧
      ∀ ws : List Word, decode cfg (w0 :: ws) =
        if ws.length + 1 < fixedWords (opcodeOf i) then .needMore else decodeOperands cfg (opcodeOf i) w0 ws := by
  obtain ⟨w0, ops, row, he, hrow, hop, hwords⟩ : Laws.HeaderRow.Statement i := by
    cases i with
    | bpp => exact Laws.HeaderRow.bpp _
    | hasalpha => exact Laws.HeaderRow.hasalpha _
    | create => exact Laws.HeaderRow.create _ _ _
    | wrap => exact Laws.HeaderRow.wrap _ _ _ _ _ _ _ _
    | getpixel => exact Laws.HeaderRow.getpixel _ _
    | setpixel => exact Laws.HeaderRow.setpixel _ _ _
    | blendpixel => exact Laws.HeaderRow.blendpixel _ _ _ _
    | drawbres => exact Laws.HeaderRow.drawbres _ _ _ _ _
    | drawpoint => exact Laws.HeaderRow.drawpoint _ _ _
    | drawaaline => exact Laws.HeaderRow.drawaaline _ _ _ _ _
  have hfixed := row_words_eq_fixedWords row (selectRow_eq_some_iff.mp hrow).1
  rw [hop] at hfixed
  rw [he, hfixed] at hwords
  refine ⟨w0, ops, he, hwords, fun ws => ?_⟩
  split
  · next h => exact decode_short hrow (hfixed ▸ h)
  · next h => rw [decode_whole hrow (by omega), hop]

/-! ## The payload of a WRAP (R58, R60) -/

section
variable {cfg : Config} {fmt : BitVec 8} {plen : BitVec 9} {w h stride len : Word} {pal data : List Word}

theorem wellFormed_wrap_iff :
    WellFormed cfg (.wrap fmt plen w h stride len pal data) = true ↔
      plen.toNat ≤ 256 ∧ wrapPayloadOk cfg fmt plen w h stride len pal data = true := by
  simp [WellFormed]

theorem wrapPayloadOk_of_ok {f : PixelFormat} (hc : wrapChecks cfg fmt w h stride len = .ok f) :
    wrapPayloadOk cfg fmt plen w h stride len pal data = true ↔
      pal.length = plen.toNat ∧ data.length = dataWords (u32 len) := by
  simp [wrapPayloadOk, hc]

theorem wrapPayloadOk_of_error {e : ErrCode} (hc : wrapChecks cfg fmt w h stride len = .error e) :
    wrapPayloadOk cfg fmt plen w h stride len pal data = true ↔ pal = [] ∧ data = [] := by
  simp [wrapPayloadOk, hc]

theorem packetLength_wrap_of_ok {f : PixelFormat} (hc : wrapChecks cfg fmt w h stride len = .ok f) :
    packetLength cfg (.wrap fmt plen w h stride len pal data) = 5 + (pal.length + data.length) := by
  rw [packetLength, hc, ← length_encode_wrap]

theorem packetLength_wrap_of_error {e : ErrCode} (hc : wrapChecks cfg fmt w h stride len = .error e) :
    packetLength cfg (.wrap fmt plen w h stride len pal data) = 0 := by
  rw [packetLength, hc]

variable (hp : plen.toNat ≤ 256)
include hp

/-- A WRAP that fails its checks awaits no payload. -/
theorem decodeWrap_of_error {e : ErrCode} (hc : wrapChecks cfg fmt w h stride len = .error e) (payload : List Word) :
    decodeWrap cfg (header 0x11 fmt plen) (w :: h :: stride :: len :: payload) =
      .packet (.wrap fmt plen w h stride len [] []) 0 := by
  rw [decodeWrap_cons hp, hc]

/-- A WRAP that passes its checks awaits `PLEN` palette words and `ceil(LEN/4)` data words. -/
theorem decodeWrap_of_ok {f : PixelFormat} (hc : wrapChecks cfg fmt w h stride len = .ok f) (payload : List Word) :
    decodeWrap cfg (header 0x11 fmt plen) (w :: h :: stride :: len :: payload) =
      if payload.length < plen.toNat + dataWords (u32 len) then .needMore
      else
        .packet
          (.wrap fmt plen w h stride len (payload.take plen.toNat)
            ((payload.drop plen.toNat).take (dataWords (u32 len))))
          (5 + (plen.toNat + dataWords (u32 len))) := by
  rw [decodeWrap_cons hp, hc]

end

/-! ## Decoding an encoding -/

/-- The words of a well-formed WRAP, with anything after them, decode to it. -/
theorem decodeWrap_encode {cfg : Config} {fmt : BitVec 8} {plen : BitVec 9} {w h stride len : Word}
    {pal data : List Word} (hw : WellFormed cfg (.wrap fmt plen w h stride len pal data) = true) (rest : List Word) :
    decodeWrap cfg (header 0x11 fmt plen) (w :: h :: stride :: len :: (pal ++ data ++ rest)) =
      .packet (.wrap fmt plen w h stride len pal data)
        (packetLength cfg (.wrap fmt plen w h stride len pal data)) := by
  obtain ⟨hp, hpay⟩ := wellFormed_wrap_iff.mp hw
  cases hc : wrapChecks cfg fmt w h stride len with
  | ok f =>
    obtain ⟨hpal, hdata⟩ := (wrapPayloadOk_of_ok hc).mp hpay
    rw [decodeWrap_of_ok hp hc, packetLength_wrap_of_ok hc, ← hpal, ← hdata, if_neg (by simp)]
    simp [List.append_assoc]
  | error e =>
    obtain ⟨rfl, rfl⟩ := (wrapPayloadOk_of_error hc).mp hpay
    rw [decodeWrap_of_error hp hc, packetLength_wrap_of_error hc]

/-- The operands of a well-formed packet, with anything after them, decode to it. -/
theorem decodeOperands_encode {cfg : Config} {i : Instr} (hw : WellFormed cfg i = true) {w0 : Word} {ops : List Word}
    (he : encode i = w0 :: ops) (rest : List Word) :
    decodeOperands cfg (opcodeOf i) w0 (ops ++ rest) = .packet i (packetLength cfg i) := by
  have hfmt (opc fmt : BitVec 8) (plen : BitVec 9) : fmtField (header opc fmt plen) = fmt :=
    (header_fields opc fmt plen).2.1
  cases i with
  | wrap => cases he; exact decodeWrap_encode hw rest
  | blendpixel x y color ratio =>
    cases he
    have hr : ratio.toNat ≤ 65536 := of_decide_eq_true hw
    exact if_neg (Nat.not_lt.mpr hr)
  | bpp | hasalpha | create => cases he; simp only [opcodeOf, decodeOperands, hfmt]; rfl
  | getpixel | setpixel | drawbres | drawpoint | drawaaline => cases he; rfl

/-- Settles O54: the header leads to the operands, and those decode to the command. -/
theorem decodeOfEncode : Obligations.DecodeOfEncode := by
  intro cfg i rest hw
  obtain ⟨w0, ops, he, hl, hd⟩ := encode_eq_header_cons cfg i
  rw [he, List.cons_append, hd, if_neg (by rw [List.length_append]; omega), decodeOperands_encode hw he]

/-! ## Packets cut short -/

/-- A command other than WRAP has its fixed words and no more. -/
theorem length_encode_of_ne_wrap {i : Instr} (hi : opcodeOf i ≠ .wrap) : (encode i).length = fixedWords (opcodeOf i) := by
  cases i with
  | wrap => exact absurd rfl hi
  | bpp | hasalpha | create | getpixel | setpixel | blendpixel | drawbres | drawpoint | drawaaline => rfl

/-- A well-formed WRAP cut short within its payload decodes to `NeedMore`. -/
theorem decodeWrap_payload_short {cfg : Config} {fmt : BitVec 8} {plen : BitVec 9} {w h stride len : Word}
    {pal data : List Word} (hw : WellFormed cfg (.wrap fmt plen w h stride len pal data) = true) {k : Nat}
    (hk : k < pal.length + data.length) :
    decodeWrap cfg (header 0x11 fmt plen) (w :: h :: stride :: len :: (pal ++ data).take k) = .needMore := by
  obtain ⟨hp, hpay⟩ := wellFormed_wrap_iff.mp hw
  cases hc : wrapChecks cfg fmt w h stride len with
  | ok f =>
    obtain ⟨hpal, hdata⟩ := (wrapPayloadOk_of_ok hc).mp hpay
    rw [decodeWrap_of_ok hp hc, if_pos]
    rw [List.length_take, List.length_append]
    omega
  | error e =>
    obtain ⟨rfl, rfl⟩ := (wrapPayloadOk_of_error hc).mp hpay
    exact absurd hk (Nat.not_lt_zero k)

/-- Settles O53: before its fixed words are there a packet is short, and after them only a WRAP has words left. -/
theorem partialPacketsWait : Obligations.PartialPacketsWait := by
  intro cfg i k hw hk
  obtain ⟨w0, ops, he, hl, hd⟩ := encode_eq_header_cons cfg i
  cases k with
  | zero => rfl
  | succ k =>
    rw [he, List.take_succ_cons, hd]
    split
    · rfl
    · next hfixed =>
      rw [he, List.length_cons] at hk
      rw [List.length_take] at hfixed
      by_cases hi : opcodeOf i = .wrap
      · cases i with
        | wrap fmt plen w h stride len pal data =>
          cases he
          obtain ⟨j, rfl⟩ : ∃ j, k = j + 4 := ⟨k - 4, by simp only [opcodeOf, fixedWords] at hfixed; omega⟩
          exact decodeWrap_payload_short hw (by simpa using hk)
        | bpp | hasalpha | create | getpixel | setpixel | blendpixel | drawbres | drawpoint | drawaaline => cases hi
      · have := length_encode_of_ne_wrap hi
        rw [he, List.length_cons] at this
        omega

/-! ## Encoding what was decoded -/

/-- A packet comes from a header that selects a row, the row's fixed words, and the decoding of its operands (R60). -/
theorem exists_row_of_decode_packet {cfg : Config} {ws : List Word} {i : Instr} {n : Nat}
    (h : decode cfg ws = .packet i n) :
    ∃ w0 ops row, ws = w0 :: ops ∧ row ∈ opcodeMap ∧ w0 &&& row.mask = row.pattern ∧ row.words ≤ ops.length + 1 ∧
      decodeOperands cfg row.op w0 ops = .packet i n := by
  cases ws with
  | nil => cases h
  | cons w0 ops =>
    cases hrow : selectRow w0 with
    | none => rw [decode_illegal hrow] at h; cases h
    | some row =>
      obtain ⟨hmem, hmatch⟩ := selectRow_eq_some_iff.mp hrow
      by_cases hl : row.words ≤ ops.length + 1
      · exact ⟨w0, ops, row, rfl, hmem, hmatch, hl, decode_whole hrow hl ▸ h⟩
      · rw [decode_short hrow (by omega)] at h; cases h

/-- The first `n` operand words stand at the front of the words after the header. -/
theorem operands_eq_take {ops : List Word} {n : Nat} (h : n ≤ ops.length) :
    ((List.range n).map fun k => operand ops (k + 1)) = ops.take n := by
  refine List.ext_getElem (by simpa using h) fun k hk hk' => ?_
  simp only [List.length_take] at hk'
  simp [operand, show k < ops.length by omega]

/-- What it means that the decoder took a packet of `n` words from the front of `ws` (R60). -/
def TakenFrom (cfg : Config) (ws : List Word) (i : Instr) (n : Nat) : Prop :=
  WellFormed cfg i = true ∧ encode i <+: ws ∧ n = packetLength cfg i

/-- A well-formed command whose words are the header and the first `n` operand words was taken from them. -/
theorem takenFrom_of_operands {cfg : Config} {i : Instr} {w0 : Word} {ops : List Word} (n : Nat)
    (hw : WellFormed cfg i = true) (hp : packetLength cfg i = n + 1)
    (he : encode i = w0 :: (List.range n).map fun k => operand ops (k + 1)) (hl : n + 1 ≤ ops.length + 1) :
    TakenFrom cfg (w0 :: ops) i (n + 1) := by
  refine ⟨hw, ?_, hp.symm⟩
  rw [he, operands_eq_take (by omega)]
  exact List.prefix_cons_inj w0 |>.mpr (List.take_prefix n ops)

/-- A WRAP the decoder delivers was taken from its words. -/
theorem takenFrom_of_decodeWrap {cfg : Config} {fmt : BitVec 8} {plen : BitVec 9} {w h stride len : Word}
    {payload : List Word} {i : Instr} {n : Nat}
    (hd : decodeWrap cfg (header 0x11 fmt plen) (w :: h :: stride :: len :: payload) = .packet i n) :
    TakenFrom cfg (header 0x11 fmt plen :: w :: h :: stride :: len :: payload) i n := by
  have hp : plen.toNat ≤ 256 := by
    by_contra hp
    have hill := (decodeWrap_illegal_iff (cfg := cfg) (w0 := header 0x11 fmt plen)
      (ops := w :: h :: stride :: len :: payload)).mpr ⟨rfl, by rw [(header_fields _ _ _).2.2.1]; omega⟩
    rw [hill] at hd; cases hd
  cases hc : wrapChecks cfg fmt w h stride len with
  | error e =>
    rw [decodeWrap_of_error hp hc] at hd; cases hd
    refine ⟨wellFormed_wrap_iff.mpr ⟨hp, (wrapPayloadOk_of_error hc).mpr ⟨rfl, rfl⟩⟩, ?_,
      (packetLength_wrap_of_error hc).symm⟩
    exact List.prefix_append [header 0x11 fmt plen, w, h, stride, len] payload
  | ok f =>
    rw [decodeWrap_of_ok hp hc] at hd
    split at hd
    · cases hd
    · next hl =>
      cases hd
      have hpal : (payload.take plen.toNat).length = plen.toNat := by rw [List.length_take]; omega
      have hdata : ((payload.drop plen.toNat).take (dataWords (u32 len))).length = dataWords (u32 len) := by
        rw [List.length_take, List.length_drop]; omega
      refine ⟨wellFormed_wrap_iff.mpr ⟨hp, (wrapPayloadOk_of_ok hc).mpr ⟨hpal, hdata⟩⟩, ?_, ?_⟩
      · rw [encode, List.append_assoc, ← List.take_add]
        exact (List.prefix_append_right_inj [_, _, _, _, _]).mpr (List.take_prefix _ payload)
      · rw [packetLength_wrap_of_ok hc, hpal, hdata]

/-- A matching header is the header of its row's opcode and its own fields, without those that must be 0 (R51, R55). -/
theorem header_eq_of_match {row : OpcodeRow} (hmem : row ∈ opcodeMap) {w : Word} (hw : w &&& row.mask = row.pattern) :
    header (rowOpcode row) (fmtField w) (plenField w) = w ∧
      (rowOpcode row ≠ 0x11 → header (rowOpcode row) (fmtField w) 0 = w) ∧
      (rowOpcode row ∉ ([0x01, 0x02, 0x10, 0x11] : List (BitVec 8)) → header (rowOpcode row) 0 0 = w) := by
  obtain ⟨ho, hres, hplen, hfmt⟩ := (matches_row_iff hmem w).mp hw
  have hw := header_of_fields hres
  rw [ho] at hw hplen hfmt
  refine ⟨hw, fun h => hplen h ▸ hw, fun h => ?_⟩
  have h11 : rowOpcode row ≠ 0x11 := fun he => h (by rw [he]; decide)
  rwa [hplen h11, hfmt h] at hw

/-- Settles O55: row by row, the header is the one the encoder builds and the operands stand after it. -/
theorem encodeOfDecode : Obligations.EncodeOfDecode := by
  intro cfg ws i n h
  obtain ⟨w0, ops, row, rfl, hmem, hmatch, hl, hd⟩ := exists_row_of_decode_packet h
  obtain ⟨hwrap, hfmt, hbare⟩ := header_eq_of_match hmem hmatch
  change TakenFrom cfg (w0 :: ops) i n
  simp only [opcodeMap, List.mem_cons, List.not_mem_nil, or_false] at hmem
  obtain rfl | rfl | rfl | rfl | rfl | rfl | rfl | rfl | rfl | rfl := hmem
  · cases hd; exact takenFrom_of_operands 0 rfl rfl (congrArg (· :: _) (hfmt (by decide))) hl
  · cases hd; exact takenFrom_of_operands 0 rfl rfl (congrArg (· :: _) (hfmt (by decide))) hl
  · cases hd; exact takenFrom_of_operands 2 rfl rfl (congrArg (· :: _) (hfmt (by decide))) hl
  · match ops, hl with
    | w :: h :: stride :: len :: payload, _ =>
      rw [← hwrap] at hd ⊢
      exact takenFrom_of_decodeWrap hd
  · cases hd; exact takenFrom_of_operands 2 rfl rfl (congrArg (· :: _) (hbare (by decide))) hl
  · cases hd; exact takenFrom_of_operands 3 rfl rfl (congrArg (· :: _) (hbare (by decide))) hl
  · dsimp only [decodeOperands] at hd
    split at hd
    · cases hd
    · next hr =>
      cases hd
      exact takenFrom_of_operands 4 (decide_eq_true (by omega)) rfl (congrArg (· :: _) (hbare (by decide))) hl
  · cases hd; exact takenFrom_of_operands 5 rfl rfl (congrArg (· :: _) (hbare (by decide))) hl
  · cases hd; exact takenFrom_of_operands 3 rfl rfl (congrArg (· :: _) (hbare (by decide))) hl
  · cases hd; exact takenFrom_of_operands 5 rfl rfl (congrArg (· :: _) (hbare (by decide))) hl

end Sys2Proof.Machine
end

section
/-!
SUPPORT. The whole machine (spec/00_scope.md R6, spec/10_state.md R23, spec/60_exceptions.md R155, R165): that commands always
answer, what a faulting one leaves, what every command keeps, and that each step keeps the invariant.
-/

namespace Sys2Proof.Machine

/-! ## Commands and steps answer (R6) -/

theorem exec_next (i : Instr) (s : State) : ∃ t, exec i s = .next t := by
  cases i with
  | bpp | hasalpha | create | wrap | getpixel | setpixel | blendpixel | drawbres | drawpoint | drawaaline =>
    exact outcome_next _

theorem step_of_needMore {s : State} (hf : s.fault = false) (hd : decode s.cfg (s.stream.drop s.pos) = .needMore) :
    step s = .fault .awaitingWords := by
  simp [step, hf, fetch, pending, hd]

theorem step_of_packet {s t : State} {i : Instr} {n : Nat} (hf : s.fault = false)
    (hd : decode s.cfg (s.stream.drop s.pos) = .packet i n) (ht : exec i s = .next t) :
    step s = .next (retire n t) := by
  simp [step, hf, fetch, pending, hd, ht, finishStep]

/-- Settles O45: every command's body ends in a state, and a step stops without one at its two tests only. -/
theorem everyCommandAnswersAState : Obligations.EveryCommandAnswersAState := by
  refine ⟨exec_next, fun s => ?_⟩
  cases hf : s.fault with
  | true => exact .inr (.inl ⟨rfl, step_of_fault hf⟩)
  | false =>
    cases hd : decode s.cfg (s.stream.drop s.pos) with
    | needMore => exact .inr (.inr ⟨rfl, rfl, step_of_needMore hf hd⟩)
    | illegal why => exact .inl ⟨_, step_illegal hf hd⟩
    | packet i n =>
      obtain ⟨t, ht⟩ := exec_next i s
      exact .inl ⟨_, step_of_packet hf hd ht⟩

/-- Settles O50: the decoder delivers well-formed packets only, and `retire` is the last line of the step. -/
theorem stepRunsTheDecodedCommand : Obligations.StepRunsTheDecodedCommand := by
  intro s i n hf hd
  obtain ⟨t, ht⟩ := exec_next i s
  exact ⟨(encodeOfDecode _ _ _ _ hd).1, t, ht, step_of_packet hf hd ht⟩

/-! ## What every command keeps (R11, R13, R19, R20, R23) -/

/-- Settles O46: of the effects of a command only the two constructions write the buffer's registers or the palette. -/
theorem pixelCommandsKeepTheBuffer : Obligations.PixelCommandsKeepTheBuffer := by
  intro i s t hi h
  cases exec_effect h with
  | push | store | fault | access => exact ⟨rfl, rfl, rfl, rfl, rfl, rfl, rfl, rfl⟩
  | create he => rw [he] at hi; cases hi
  | wrap he => rw [he] at hi; cases hi

/-- No command writes the stream, `pos` or the parameters. -/
theorem Effect.inputs_eq {i : Instr} {s t : State} (h : Effect i s t) :
    t.stream = s.stream ∧ t.pos = s.pos ∧ t.cfg = s.cfg := by
  cases h with
  | push | create | wrap | store | fault | access => simp

/-- Settles O47: of the effects of a command only the push writes `OUT`, and none writes the stream, `pos` or the parameters. -/
theorem commandsOnlyAppendToOut : Obligations.CommandsOnlyAppendToOut := by
  refine ⟨fun i s t h => ⟨?_, (exec_effect h).inputs_eq⟩, fun s v vs hout => by rw [hostPop, hout]⟩
  cases exec_effect h with
  | push v hp => exact .inr ⟨hp, v, rfl⟩
  | create | wrap | store | fault | access => exact .inl (by simp)

/-! ## What a faulting command leaves (R155, R165) -/

/-- A command that faults records a code other than 9 and changes nothing else, or it is a pixel or draw command with an
in-bounds pixel whose bytes leave the buffer; only a draw command may have stored pixels before. -/
theorem Effect.faulting {i : Instr} {s t : State} (h : Effect i s t) (hs : s.fault = false) (ht : t.fault = true) :
    (∃ e, e ≠ .accessFault ∧ t = raise e s) ∨
      ∃ m, t = raise .accessFault (setPmem m s) ∧ (isDraw i = false → m = s.pmem) ∧
        ∃ x y, inBounds s x y = true ∧
          s.dlen.toNat < pixelOffset s x y + (if s.format = .indexed8 then 1 else directBytes s.format) := by
  cases h with
  | push | create | wrap | store => simp [hs] at ht
  | fault he => exact .inl ⟨_, he, rfl⟩
  | access _ _ _ hd hx => exact .inr ⟨_, rfl, hd, hx⟩

/-- In a well-formed buffer the access check of R34 passes for every in-bounds pixel (R36). -/
theorem access_ok {s : State} (h : WellFormedBuffer s) {x y : Int} (hb : inBounds s x y = true) :
    pixelOffset s x y + (if s.format = .indexed8 then 1 else directBytes s.format) ≤ s.dlen.toNat := by
  split
  · next hf =>
    have := (pixel_in_row h hb).2.2
    rwa [hf] at this
  · next hf => exact direct_access_ok ⟨h, hf⟩ hb

/-- Settles O42: a step that faults recorded `IllegalCommand`, or ran a command that faulted and was not retired. -/
theorem raiseRecordsTheFault : Obligations.RaiseRecordsTheFault := by
  intro s t hs h ht
  obtain rfl | ⟨i, n, u, -, hu, rfl⟩ := step_cases hs h
  · exact ⟨(errorCode_range .illegalCommand).1, (errorCode_range .illegalCommand).2, rfl⟩
  · rw [retire_fault] at ht
    rw [retire_of_fault ht]
    obtain ⟨e, -, rfl⟩ | ⟨m, rfl, -⟩ := hu.faulting hs ht
    · exact ⟨(errorCode_range e).1, (errorCode_range e).2, rfl⟩
    · exact ⟨(errorCode_range .accessFault).1, (errorCode_range .accessFault).2, rfl⟩

/-- Settles O43: the two kinds of faulting effect, and the byte frame of a draw command. -/
theorem faultsArePrecise : Obligations.FaultsArePrecise := by
  intro i s t hs h ht
  obtain ⟨e, he, rfl⟩ | ⟨m, rfl, hm, -⟩ := (exec_effect h).faulting hs ht
  · exact ⟨fun _ => rfl, fun _ hcode => absurd (raise_errcode_eq_iff (e' := .accessFault).mp hcode) he⟩
  · refine ⟨?_, fun hi _ => ⟨rfl, fun a ha => exec_draw_frame hi h ha⟩⟩
    rintro (hi | hcode)
    · rw [hm hi]; rfl
    · exact absurd rfl hcode

/-- Settles O48: an `AccessFault` needs an in-bounds pixel that fails the access check. -/
theorem wellFormedBuffersNeverAccessFault : Obligations.WellFormedBuffersNeverAccessFault := by
  intro i s t hwf hs h ht hcode
  obtain ⟨e, he, rfl⟩ | ⟨m, rfl, -, x, y, hb, hlt⟩ := (exec_effect h).faulting hs ht
  · exact he (raise_errcode_eq_iff (e' := .accessFault).mp hcode)
  · exact absurd hlt (access_ok hwf hb).not_gt

/-! ## The registers a CREATE writes (R82, R83) -/

/-- A CREATE that passes its checks has a stride and a size that fit their registers: nothing wraps. -/
theorem create_registers {cfg : Config} {fmt : BitVec 8} {w h : Word} {f : PixelFormat}
    (hc : createChecks cfg fmt w h = .ok f) :
    (BitVec.ofNat 32 (createStride f w.toNat)).toNat = createStride f w.toNat ∧
      (BitVec.ofNat 32 (createBytes f w h)).toNat = createStride f w.toNat * h.toNat := by
  obtain ⟨-, -, hh, hcap⟩ := createChecks_ok hc
  have hlt : createStride f w.toNat * h.toNat < 2 ^ 32 := hcap.trans_lt cfg.pmemBytes.isLt
  have hle : createStride f w.toNat ≤ createStride f w.toNat * h.toNat :=
    Nat.le_mul_of_pos_right _ (toNat_of_toInt_pos hh).2.1
  exact ⟨(BitVec.toNat_ofNat _ _).trans (Nat.mod_eq_of_lt (hle.trans_lt hlt)),
    (BitVec.toNat_ofNat _ _).trans (Nat.mod_eq_of_lt hlt)⟩

/-! ## The invariant (R11, R12, R18, R23) -/

/-- The invariant holds at reset for any parameters of the machine. -/
theorem inv_reset_withCfg (cfg : Config) : Inv { State.reset with cfg := cfg } where
  memory := ⟨.nil, nofun⟩
  capacity := nofun
  buffer := nofun
  record := .inl ⟨rfl, rfl⟩
  position := Nat.le_refl 0

/-- Settles O59: at reset no buffer is bound, no fault is recorded and PMEM and the stream are empty. -/
theorem invariantHoldsAtReset : Obligations.InvariantHoldsAtReset :=
  ⟨inv_reset_withCfg State.reset.cfg, fun s => inv_reset_withCfg s.cfg⟩

namespace Inv

variable {s : State} (h : Inv s)
include h

theorem raise (e : ErrCode) : Inv (raise e s) :=
  { h with record := .inr ⟨rfl, errorCode_range e⟩ }

theorem outPush (v : Word) : Inv (outPush v s) := { h with }

/-- Stores of pixels stay inside the buffer, so inside PMEM. -/
theorem setPmem {m : Memory} (hb : s.bound = true) (hm : Written s m) : Inv (setPmem m s) :=
  { h with
    memory := hm.memWf h.memory
    capacity := fun c hc => by
      obtain ⟨-, -, -, -, -, hcap, -⟩ := h.buffer hb
      exact (hm.mem hc).elim (h.capacity c) fun hlt => hlt.trans_le hcap }

/-- A new buffer whose registers meet R23 and whose bytes fit PMEM. -/
theorem bindBuffer_load {f : PixelFormat} {w ht st d : Word} {plen : BitVec 9} {pal : Vector Word 256}
    {bytes : List Byte} (hw : 0 < w.toInt) (hh : 0 < ht.toInt) (hd : d.toNat = st.toNat * ht.toNat)
    (hcap : d.toNat ≤ s.cfg.pmemBytes.val) (hbytes : bytes.length ≤ d.toNat) (hp : plen.toNat ≤ 256) :
    Inv (bindBuffer f w ht st d plen (Machine.setPmem (memLoad s.pmem bytes) { s with pal := pal })) :=
  { h with
    memory := memWf_memLoad h.memory bytes
    capacity := fun c hc => (mem_memLoad hc).elim (h.capacity c) fun hlt => by
      show c.1 < s.cfg.pmemBytes.val
      omega
    buffer := fun _ =>
      have hw := (toNat_of_toInt_pos hw).2
      have hh := (toNat_of_toInt_pos hh).2
      ⟨hw.1, hw.2, hh.1, hh.2, hd, hcap, hp⟩ }

/-- The words of a packet stand in the stream, so moving past them keeps `pos` within it. -/
theorem retire {n : Nat} (hn : s.fault = false → s.pos + n ≤ s.stream.length) : Inv (retire n s) := by
  cases hf : s.fault with
  | true => rwa [retire_of_fault hf]
  | false => rw [retire_of_no_fault hf]; exact { h with position := hn hf }

end Inv

/-- Every effect of a well-formed command keeps the invariant. -/
theorem Effect.inv {i : Instr} {s t : State} (he : Effect i s t) (h : Inv s) (hw : WellFormed s.cfg i = true) : Inv t := by
  cases he with
  | push v => exact h.outPush v
  | store _ _ hb hm => exact h.setPmem hb hm
  | fault => exact h.raise _
  | access _ hb hm => exact (h.setPmem hb hm).raise _
  | create hi hc =>
    obtain ⟨-, hpw, hph, hcap⟩ := createChecks_ok hc
    obtain ⟨hst, hd⟩ := create_registers hc
    exact h.bindBuffer_load hpw hph (hst.symm ▸ hd) (hd.trans_le hcap) (by rw [hd]; simp [createBytes, u32]) (by decide)
  | wrap hi hc =>
    subst hi
    obtain ⟨-, hpw, hph, hlen, hcap⟩ := wrapChecks_ok hc
    exact h.bindBuffer_load hpw hph hlen hcap (length_payloadBytes_le _ _) (wellFormed_wrap_iff.mp hw).1

/-- The decoder reports no more words than stand in the stream. -/
theorem length_le_of_decode {cfg : Config} {ws : List Word} {i : Instr} {n : Nat} (h : decode cfg ws = .packet i n) :
    n ≤ ws.length := by
  obtain ⟨-, hpre, rfl⟩ := encodeOfDecode _ _ _ _ h
  refine le_trans ?_ hpre.length_le
  cases i with
  | bpp | hasalpha | create | getpixel | setpixel | blendpixel | drawbres | drawpoint | drawaaline => exact le_rfl
  | wrap fmt plen w ht stride len =>
    cases hc : wrapChecks cfg fmt w ht stride len with
    | ok f => rw [packetLength_wrap_of_ok hc, length_encode_wrap]
    | error e => rw [packetLength_wrap_of_error hc]; exact Nat.zero_le _

/-- Settles O57: an illegal packet and every effect of a decoded, hence well-formed, command keep the invariant; the packet's
words lie in the stream. -/
theorem stepKeepsTheInvariant : Obligations.StepKeepsTheInvariant := by
  intro s t h hstep
  have hs : s.fault = false := by
    by_contra hf
    exact step_ne_next_of_fault (Bool.eq_true_of_not_eq_false hf) t hstep
  obtain rfl | ⟨i, n, u, hd, hu, rfl⟩ := step_cases hs hstep
  · exact h.raise _
  · have hlen := length_le_of_decode hd
    rw [List.length_drop] at hlen
    obtain ⟨hstream, hpos, -⟩ := hu.inputs_eq
    refine (hu.inv h (encodeOfDecode _ _ _ _ hd).1).retire fun _ => ?_
    rw [hstream, hpos]
    have := h.position
    omega

/-! ## Worked encodings (30_encoding.md section 7) -/

/-- Settles O56: thirteen closed instances, which the decoder computes. -/
theorem specWordsDecode : Obligations.SpecWordsDecode := by
  unfold Obligations.SpecWordsDecode
  decide

end Sys2Proof.Machine
end

section
/-!
SUPPORT. What CREATE, WRAP and HASALPHA do when they complete (spec/41_buffer.md R82 to R84, spec/40_format_policy.md R71, R73).
-/

namespace Sys2Proof.Machine

/-! ## HASALPHA (R71, R73) -/

/-- HASALPHA of a format's code pushes whether the format has alpha. -/
theorem exec_hasalpha_formatCode (f : PixelFormat) (s : State) :
    exec (.hasalpha ((formatCode f).setWidth 8)) s = .next (outPush (if formatAlpha f then 1 else 0) s) := by
  rw [exec, execHasalpha, hasAlpha, lookupFormat_formatCode]
  rfl

/-- Settles O2: codes 0 to 3 are the codes of the four formats, in the order of R54, and no other code names one. -/
theorem hasalphaPushesAlphaPresence : Obligations.HasalphaPushesAlphaPresence := fun s =>
  ⟨exec_hasalpha_formatCode .indexed8 s, exec_hasalpha_formatCode .rgb24 s, exec_hasalpha_formatCode .argb32 s,
    exec_hasalpha_formatCode .argb64 s, fun _ hge => exec_hasalpha_of_ge hge s⟩

/-! ## CREATE (R82, R83) -/

theorem exec_create_of_ok {fmt : BitVec 8} {s : State} {w h : Word} {f : PixelFormat}
    (hc : createChecks s.cfg fmt w h = .ok f) :
    exec (.create fmt w h) s =
      .next
        (bindBuffer f w h (BitVec.ofNat 32 (createStride f w.toNat)) (BitVec.ofNat 32 (createBytes f w h)) 0
          (setPmem (memZero s.pmem (createBytes f w h)) s)) := by
  rw [exec, execCreate, hc, outcome_done, u32]

/-- Settles O4: with the checks passed, the registers hold the rounded stride and the size, and the fill is of that size. -/
theorem createMakesAZeroFilledBuffer : Obligations.CreateMakesAZeroFilledBuffer := by
  intro s f w h hw hh hcap
  have hc : createChecks s.cfg ((formatCode f).setWidth 8) w h = .ok f :=
    (createChecks_of_pos hw hh).trans (if_neg hcap.not_gt)
  obtain ⟨hst, hd⟩ := create_registers hc
  refine ⟨_, exec_create_of_ok hc, rfl, hst, ?_, fun a ha => memRead_memZero_of_lt ?_,
    fun a ha => memRead_memZero_of_le ?_⟩
  · rw [bindBuffer_dlen, hd, bindBuffer_stride, hst]
  · rwa [bindBuffer_dlen, hd] at ha
  · rwa [bindBuffer_dlen, hd] at ha

/-- Settles O5: a completing CREATE passed its checks, and the rounded stride covers the row with at most 3 bytes to spare. -/
theorem createdBuffersAreWellFormed : Obligations.CreatedBuffersAreWellFormed := by
  intro s t fmt w h hs hex ht
  cases hc : createChecks s.cfg fmt w h with
  | error e => rw [exec_create_of_error hc] at hex; cases hex; cases ht
  | ok f =>
    rw [exec_create_of_ok hc] at hex
    cases hex
    obtain ⟨hst, hd⟩ := create_registers hc
    obtain ⟨hrow, hpad, hmod⟩ := createStride_bounds f w.toNat
    simp only [WellFormedBuffer, bindBuffer_bound, bindBuffer_dlen, bindBuffer_stride, bindBuffer_height,
      bindBuffer_format, bindBuffer_width, bindBuffer_plen, hst, hd, true_and]
    exact ⟨hrow, hmod, by omega, (createChecks_ok hc).1.symm⟩

/-! ## WRAP (R84) -/

theorem exec_wrap_of_ok {fmt : BitVec 8} {s : State} {w h stride len : Word} {f : PixelFormat}
    (hc : wrapChecks s.cfg fmt w h stride len = .ok f) (plen : BitVec 9) (pal data : List Word) :
    exec (.wrap fmt plen w h stride len pal data) s =
      .next
        (bindBuffer f w h stride len plen
          (setPmem (memLoad s.pmem (payloadBytes data len.toNat)) { s with pal := palLoad s.pal plen.toNat pal })) := by
  rw [exec, execWrap, hc, outcome_done, u32]

/-- The palette after a load of all its entries below `plen` (R17). -/
theorem getElem_palLoad (pal : Vector Word 256) {plen : Nat} {p : List Word} (hp : p.length = plen) (i : Fin 256) :
    (palLoad pal plen p)[i] = if i.val < plen then p.getD i.val 0 else pal[i] := by
  rw [palLoad, Fin.getElem_fin, Vector.getElem_ofFn]
  split
  · next hi => rw [List.getD_eq_getElem _ _ (hp ▸ hi), List.getD_eq_getElem _ _ (hp ▸ hi)]
  · rfl

/-- Settles O6: with the checks passed, the palette words and the raw bytes are loaded where they stand in the payload. -/
theorem wrapAdoptsThePayload : Obligations.WrapAdoptsThePayload := by
  intro s f plen w h stride len pal data _ hw hh hlen hcap hpal hdata
  have hc : wrapChecks s.cfg ((formatCode f).setWidth 8) w h stride len = .ok f :=
    (wrapChecks_of_length_eq hw hh hlen).trans (if_neg hcap.not_gt)
  have hbytes : (payloadBytes data len.toNat).length = len.toNat := length_payloadBytes hdata
  refine ⟨_, exec_wrap_of_ok hc plen pal data, by simp only [bindBuffer, setPmem], getElem_palLoad s.pal hpal,
    fun i hi => ?_, fun a ha => ?_⟩
  · exact (memRead_memLoad_of_lt (hbytes.symm ▸ hi)).trans (getElem_payloadBytes _)
  · exact memRead_memLoad_of_le (hbytes.symm ▸ ha)

end Sys2Proof.Machine
end

section
/-!
SUPPORT. GETPIXEL, SETPIXEL and BLENDPIXEL on a bound buffer (spec/42_pixel_access.md R101 to R110): what each does out of
bounds, when its access check fails, and when it completes.
-/

namespace Sys2Proof.Machine

/-! ## Reading (R100 to R103) -/

/-- The access check of a read fails (R34). -/
theorem getPixel_of_access_fault {s : State} {x y : Int} (hin : inBounds s x y = true)
    (hd : s.dlen.toNat < pixelOffset s x y + (if s.format = .indexed8 then 1 else directBytes s.format)) :
    getPixel s x y = .error .accessFault := by
  by_cases hf : s.format = .indexed8
  · rw [getPixel_indexed hin hf, paletteRead, if_pos (by rwa [if_pos hf] at hd)]
  · rw [getPixel_direct hin hf, directRead, if_pos (by rwa [if_neg hf] at hd)]

theorem exec_getpixel_of_ok {s : State} (hb : s.bound = true) {x y : Word} {c : Color}
    (hg : getPixel s x.toInt y.toInt = .ok c) : exec (.getpixel x y) s = .next (outPush (wordOf c) s) := by
  rw [exec, execGetpixel, needBuffer_bound hb, s32, s32, hg, outcome_done]

/-- A palette entry named by a number instead of an index byte. -/
theorem palEntry_eq (pal : Vector Word 256) {b : Byte} {i : Fin 256} (h : i.val = b.toNat) : palEntry pal b = pal[i] := by
  simp only [palEntry, Fin.getElem_fin, h]

/-- Settles O10: out of bounds a read gives transparent black, whose word is 0, and a write or a blend is over at once. -/
theorem outOfBoundsAccessIsSilent : Obligations.OutOfBoundsAccessIsSilent := by
  intro s x y hb hout
  have hin := inBounds_eq_false_iff.mpr hout
  refine ⟨exec_getpixel_of_ok hb (getPixel_out hin), fun color => ?_, fun color ratio => ?_⟩
  · rw [exec_setpixel_of_bound hb, setPixel_out hin, outcome_done]
  · rw [exec_blendpixel_of_bound hb, blend_out hin, outcome_done]

/-- Settles O11: the check passes, so the colour is read from the bytes at the pixel's offset. -/
theorem getpixelReadsADirectPixel : Obligations.GetpixelReadsADirectPixel := by
  intro s x y o hb hf hin ho hd
  rw [← pixelOffset_words hin] at ho
  subst ho
  rw [exec_getpixel_of_ok hb ((getPixel_direct hin hf).trans (directRead_ok hd))]
  rfl

/-- Settles O12: the colour of a palette entry is its word taken apart, and GETPIXEL puts it together again. -/
theorem getpixelReadsThroughThePalette : Obligations.GetpixelReadsThroughThePalette := by
  intro s x y o i hb hf hin ho hd hi hlt
  rw [← pixelOffset_words_indexed hf hin] at ho
  subst ho
  rw [exec_getpixel_of_ok hb (getPixel_of_index_lt hf hin hd (hi ▸ hlt)), wordOf_colorOf, palEntry_eq s.pal hi]
  rfl

/-! ## Writing (R104, R106, R110) -/

/-- `SetPixel` of an in-bounds pixel of a direct format that passes the access check. -/
theorem setPixel_fits {s : State} {x y : Int} (hin : inBounds s x y = true) (hf : s.format ≠ .indexed8)
    (hd : PixelFits s x y) (c : Color) :
    setPixel x y c s = .done (setPmem (memWriteBytes s.pmem (pixelOffset s x y) (pixelBytes s.format c)) s) := by
  rw [setPixel_direct hin hf, if_neg hd.not_gt]

/-- The bytes outside a stored pixel keep their values. -/
theorem memRead_store_of_outside {m : Memory} {o a : Nat} {f : PixelFormat} (c : Color)
    (h : a < o ∨ o + directBytes f ≤ a) : memRead (memWriteBytes m o (pixelBytes f c)) a = memRead m a :=
  memRead_memWriteBytes_of_outside (by rwa [length_pixelBytes])

section
variable {s : State} {x y : Word} (hb : s.bound = true) (hf : s.format ≠ .indexed8)
  (hin : inBounds s x.toInt y.toInt = true) (hd : PixelFits s x.toInt y.toInt)
include hb hf hin hd

theorem exec_setpixel_fits (color : Word) :
    exec (.setpixel x y color) s =
      .next
        (setPmem (memWriteBytes s.pmem (pixelOffset s x.toInt y.toInt) (pixelBytes s.format (colorOf color))) s) := by
  rw [exec_setpixel_of_bound hb, setPixel_fits hin hf hd, outcome_done]

theorem exec_blendpixel_fits (color : Word) {ratio : Word} (hr : ratio ≠ 0) :
    ∃ old, getPixel s x.toInt y.toInt = .ok old ∧
      exec (.blendpixel x y color ratio) s =
        .next
          (setPmem
            (memWriteBytes s.pmem (pixelOffset s x.toInt y.toInt)
              (pixelBytes s.format (mixColor old (colorOf color) (ratioOf ratio)))) s) := by
  have hg := (getPixel_direct hin hf).trans (directRead_ok hd)
  refine ⟨_, hg, ?_⟩
  rw [exec_blendpixel_of_bound hb, blend_direct hin (ratioOf_ne_zero hr) hf hd hg, outcome_done]

end

/-- Settles O16: the stored bytes, and the frame of the store. -/
theorem setpixelStoresThePixel : Obligations.SetpixelStoresThePixel := by
  intro s x y color o hb hf hin ho hd
  rw [← pixelOffset_words hin] at ho
  subst ho
  obtain ⟨h0, h1, h2, h3⟩ := memRead_pixelBytes s.pmem (pixelOffset s x.toInt y.toInt) s.format (colorOf color)
  exact ⟨_, exec_setpixel_fits hb hf hin hd color, rfl, h0, h1, h2, h3, fun a ha => memRead_store_of_outside _ ha⟩

/-- The word of a stored colour: the word given, with alpha 255 in a format without alpha (R110 (a), (b)). -/
theorem wordOf_storedColor (f : PixelFormat) (w : Word) :
    wordOf (storedColor f (colorOf w)) = if formatAlpha f then w else (255 : BitVec 8) ++ w.extractLsb' 0 24 := by
  have hlow : w.extractLsb' 0 24 = w.extractLsb' 16 8 ++ w.extractLsb' 8 8 ++ w.extractLsb' 0 8 := by
    rw [BitVec.extractLsb'_append_extractLsb'_eq_extractLsb' (by rfl),
      BitVec.extractLsb'_append_extractLsb'_eq_extractLsb' (by rfl)]
  unfold storedColor
  split
  · exact wordOf_colorOf w
  · simp only [hlow, wordOf, colorOf, BitVec.append_assoc, BitVec.cast_eq]

/-- Settles O18: the stored pixel reads back as its colour. -/
theorem setThenGetRoundTrips : Obligations.SetThenGetRoundTrips := by
  intro s x y color hb hf hin hd
  rw [← pixelOffset_words hin] at hd
  refine ⟨_, exec_setpixel_fits hb hf hin hd color, ?_⟩
  have hg := getPixel_after_write (c := colorOf color) hin hf hd
  rw [exec_getpixel_of_ok (by rwa [setPmem_bound]) hg, wordOf_storedColor]
  rfl

/-- Settles O19: a well-formed buffer passes the access check, and its pixels are disjoint. -/
theorem writeChangesOnePixel : Obligations.WriteChangesOnePixel := by
  intro s t x y color h hin hex x' y' hne
  rw [exec_setpixel_fits h.1.1 h.2 hin (direct_access_ok h hin)] at hex
  cases hex
  exact getPixel_after_other_write h hin hne

/-- Settles O20: pixels of a row lie side by side within the stride, and rows one after the other. -/
theorem pixelsOfAWellFormedBufferAreDisjoint : Obligations.PixelsOfAWellFormedBufferAreDisjoint := by
  intro s h x y x' y' hin hin'
  obtain ⟨hrow, hrow', hlen⟩ := pixel_in_row h hin
  exact ⟨hrow, hrow', hlen, pixels_disjoint h hin hin'⟩

/-! ## Blending (R107 to R109) -/

theorem colorByte_colorOf (w : Word) {j : Nat} (hj : j < 3) : colorByte (colorOf w) j = w.extractLsb' (8 * j) 8 := by
  match j, hj with
  | 0, _ => rfl
  | 1, _ => rfl
  | 2, _ => rfl

/-- A B, G or R byte of a pixel blended with the ratio of a word (R108). -/
theorem toNat_blended_byte {s : State} {x y : Int} {old : Color} (hin : inBounds s x y = true) (hf : s.format ≠ .indexed8)
    (ho : getPixel s x y = .ok old) (color : Word) {ratio : Word} (hr : ratio.toNat ≤ 65536) {j : Nat} (hj : j < 3) :
    (memRead
        (memWriteBytes s.pmem (pixelOffset s x y) (pixelBytes s.format (mixColor old (colorOf color) (ratioOf ratio))))
        (pixelOffset s x y + j)).toNat =
      ((65536 - ratio.toNat) * (memRead s.pmem (pixelOffset s x y + j)).toNat +
        ratio.toNat * (color.extractLsb' (8 * j) 8).toNat) / 65536 := by
  have hlen := directBytes_pos s.format
  rw [memRead_store, if_pos (by omega), Nat.add_sub_cancel_left, colorByte_mixColor, if_pos hj,
    colorByte_of_read hin hf ho hj, colorByte_colorOf color hj, ratioOf, toNat_mix_div _ _ hr]

/-- Settles O21: the mixed bytes, and the frame of the store. -/
theorem blendpixelMixesTowardTheColor : Obligations.BlendpixelMixesTowardTheColor := by
  intro s x y color ratio o hb hf hin ho hd hpos hr
  rw [← pixelOffset_words hin] at ho
  subst ho
  have hne : ratio ≠ 0 := by rintro rfl; exact absurd hpos (by decide)
  obtain ⟨old, hg, hex⟩ := exec_blendpixel_fits hb hf hin hd color hne
  obtain ⟨-, -, -, halpha⟩ := memRead_pixelBytes s.pmem (pixelOffset s x.toInt y.toInt) s.format
    (mixColor old (colorOf color) (ratioOf ratio))
  exact ⟨_, hex, rfl, fun j hj => toNat_blended_byte hin hf hg color hr hj, halpha,
    fun a ha => memRead_store_of_outside _ ha⟩

theorem mixColor_one (old c : Color) : mixColor old c 1 = { c with a := 255 } := by
  simp [mixColor]

/-- Settles O22: ratio 0 ends the blend before its read, and a mix with ratio 1 is its target. -/
theorem blendRatioEndpoints : Obligations.BlendRatioEndpoints := by
  refine ⟨fun s x y color hb => ?_, fun s x y color hb hf hin hd => ?_⟩
  · have hzero : ratioOf 0 = 0 := by simp [ratioOf]
    rw [exec_blendpixel_of_bound hb, hzero, blend_zero, outcome_done]
  · have hone : ratioOf 65536 = 1 := div_self (Nat.cast_ne_zero.mpr (by decide))
    rw [← pixelOffset_words hin] at hd
    obtain ⟨old, -, hex⟩ := exec_blendpixel_fits hb hf hin hd color (ratio := 65536) (by decide)
    refine ⟨_, hex, ?_⟩
    rw [getPixel_after_write hin hf hd, storedColor_mixColor, hone, mixColor_one]

end Sys2Proof.Machine
end

section
/-!
SUPPORT. The draw commands on a bound buffer (spec/43_bresenham.md R121, spec/44_wu.md R132 to R135): each is one run of
accesses, so what it answers is what the run does on a direct format, on an Indexed8 buffer and where nothing is in bounds; and
what no command observes (spec/20_memory.md R42).
-/

namespace Sys2Proof.Machine

/-! ## The commands as runs -/

section
variable {s : State} (hb : s.bound = true)
include hb

theorem exec_drawbres_of_bound {x0 x1 : Word} (hx : x1 ≠ x0) (y0 y1 color : Word) :
    exec (.drawbres x0 y0 x1 y1 color) s =
      (setAll (colorOf color) (bresPixels x0.toInt y0.toInt x1.toInt y1.toInt) s).outcome := by
  have hne : s32 x1 - s32 x0 ≠ 0 := sub_ne_zero.mpr fun h => hx (BitVec.eq_of_toInt_eq h)
  rw [exec, execDrawbres, needBuffer_bound hb, if_neg hne]
  rfl

theorem exec_drawpoint_of_bound (x0 y0 color : Word) :
    exec (.drawpoint x0 y0 color) s = (blendAll (colorOf color) (pointSplats (q16 x0) (q16 y0)) s).outcome := by
  rw [exec, execDrawpoint, needBuffer_bound hb]

theorem exec_drawaaline_of_bound (x0 y0 x1 y1 color : Word) :
    exec (.drawaaline x0 y0 x1 y1 color) s =
      (blendAll (colorOf color) (aalineSplats (q16 x0) (q16 y0) (q16 x1) (q16 y1)) s).outcome := by
  rw [exec, execDrawaaline, needBuffer_bound hb]

end

/-- The degenerate single-point call is the splat of its point (R135). -/
theorem aalineSplats_self (x y : ℚ) : aalineSplats x y x y = pointSplats x y := if_pos ⟨rfl, rfl⟩

/-- Settles O37: both commands run the same blends, with or without a buffer. -/
theorem degenerateWuLineIsAPoint : Obligations.DegenerateWuLineIsAPoint := by
  intro s x y color
  rw [exec, exec, execDrawaaline, execDrawpoint, aalineSplats_self]

/-- Settles O26: the backward line has no pixel. -/
theorem drawbresBackwardIsANoOp : Obligations.DrawbresBackwardIsANoOp := by
  intro s x0 y0 x1 y1 color hb hlt
  rw [exec_drawbres_of_bound hb (by rintro rfl; exact lt_irrefl _ hlt), bresPixels_of_le hlt.le, setAll, outcome_done]

/-! ## Runs on a direct format -/

/-- What DRAWBRES claims of a run of stores: it completes, gives every byte, and on a well-formed buffer every pixel. -/
theorem setAll_draws {s : State} (c : Color) (ps : List (Int × Int)) (hf : s.format ≠ .indexed8)
    (h : ∀ p ∈ ps, inBounds s p.1 p.2 = true → PixelFits s p.1 p.2) :
    ∃ t, (setAll c ps s).outcome = .next t ∧ OnlyPmem s t ∧
      (∀ a, memRead t.pmem a = storedByte s c a ps (memRead s.pmem a)) ∧
      (∀ a, (∀ p ∈ ps, inBounds s p.1 p.2 = true → ¬ PixelByte s p.1 p.2 a) → memRead t.pmem a = memRead s.pmem a) ∧
      (WellFormedBuffer s → ∀ x y : Int, inBounds s x y = true →
        getPixel t x y = if (x, y) ∈ ps then .ok (storedColor s.format c) else getPixel s x y) := by
  obtain ⟨m, hm, hbytes⟩ := setAll_bytes c ps hf h
  refine ⟨setPmem m s, by rw [hm, outcome_done], rfl, hbytes,
    fun a ha => (hbytes a).trans (storedByte_of_untouched _ ha), fun hwf => ?_⟩
  obtain ⟨m', hm', himg, -⟩ := setAll_direct c ps ⟨hwf, hf⟩
  rwa [← Ran.done.inj (hm.symm.trans hm')] at himg

/-- What DRAWPOINT and DRAWAALINE claim of a run of blends: it completes, gives every byte, and on a well-formed buffer every
pixel. -/
theorem blendAll_draws {s : State} (c : Color) (ps : List Splat) (hf : s.format ≠ .indexed8)
    (h : ∀ p ∈ ps, p.w ≠ 0 → inBounds s p.x p.y = true → PixelFits s p.x p.y) :
    ∃ t, (blendAll c ps s).outcome = .next t ∧ OnlyPmem s t ∧
      (∀ a, memRead t.pmem a = blendedByte s c a ps (memRead s.pmem a)) ∧
      (∀ a, (∀ p ∈ ps, p.w ≠ 0 → inBounds s p.x p.y = true → ¬ PixelByte s p.x p.y a) →
        memRead t.pmem a = memRead s.pmem a) ∧
      (WellFormedBuffer s → ∀ (x y : Int) (old : Color), inBounds s x y = true → getPixel s x y = .ok old →
        getPixel t x y = .ok (blendedColor c x y ps old)) := by
  obtain ⟨m, hm, hbytes⟩ := blendAll_bytes c ps fun p hp hw hb => ⟨hf, h p hp hw hb⟩
  refine ⟨setPmem m s, by rw [hm, outcome_done], rfl, hbytes,
    fun a ha => (hbytes a).trans (blendedByte_of_untouched _ ha), fun hwf => ?_⟩
  obtain ⟨m', hm', himg, -⟩ := blendAll_direct c ps ⟨hwf, hf⟩
  rwa [← Ran.done.inj (hm.symm.trans hm')] at himg

/-- Settles O25: DRAWBRES is the run of stores of its pixels. -/
theorem drawbresDrawsTheVisitedPixels : Obligations.DrawbresDrawsTheVisitedPixels := by
  intro s x0 y0 x1 y1 color hb hf hx hfits
  rw [exec_drawbres_of_bound hb hx]
  exact setAll_draws _ _ hf hfits

/-- Settles O32: DRAWPOINT is the run of blends of its splat. -/
theorem drawpointBlendsTheSplat : Obligations.DrawpointBlendsTheSplat := by
  intro s x0 y0 color hb hf hfits
  rw [exec_drawpoint_of_bound hb]
  exact blendAll_draws _ _ hf hfits

/-- Settles O33: DRAWAALINE is the run of blends of its line. -/
theorem drawaalineBlendsTheLine : Obligations.DrawaalineBlendsTheLine := by
  intro s x0 y0 x1 y1 color hb hf hfits
  rw [exec_drawaaline_of_bound hb]
  exact blendAll_draws _ _ hf hfits

/-! ## Runs that reach nothing (R154) -/

/-- A run of stores out of bounds does nothing. -/
theorem setAll_of_out (c : Color) {ps : List (Int × Int)} {s : State} (h : ∀ p ∈ ps, inBounds s p.1 p.2 = false) :
    setAll c ps s = .done s := by
  induction ps with
  | nil => rfl
  | cons p ps ih =>
    rw [setAll, setPixel_out (h p List.mem_cons_self), andThen_done]
    exact ih fun q hq => h q (List.mem_cons_of_mem _ hq)

theorem accesses_eq_false {s : State} {p : Splat} (h : p.w ≠ 0 → inBounds s p.x p.y = false) : accesses s p = false := by
  by_cases hw : p.w = 0
  · simp [accesses, hw]
  · simp [accesses, h hw]

/-- Settles O40: no pixel of the run is accessed. -/
theorem drawingOutsideChangesNothing : Obligations.DrawingOutsideChangesNothing := by
  intro s x0 y0 x1 y1 color hb
  refine ⟨fun hx hout => ?_, fun hout => ?_, fun hout => ?_⟩
  · rw [exec_drawbres_of_bound hb hx, setAll_of_out _ hout, outcome_done]
  · rw [exec_drawpoint_of_bound hb, blendAll_of_not_accesses _ fun p hp => accesses_eq_false (hout p hp), outcome_done]
  · rw [exec_drawaaline_of_bound hb, blendAll_of_not_accesses _ fun p hp => accesses_eq_false (hout p hp), outcome_done]

/-! ## Runs on an Indexed8 buffer (R105, R164) -/

/-- A run of stores on an Indexed8 buffer ends at its first in-bounds pixel, with nothing written. -/
theorem setAll_indexed (c : Color) {ps : List (Int × Int)} {s : State} (hf : s.format = .indexed8)
    (h : ∃ p ∈ ps, inBounds s p.1 p.2 = true) : setAll c ps s = .raised .indexedWriteTarget s := by
  induction ps with
  | nil => simp at h
  | cons p ps ih =>
    rw [setAll]
    cases hb : inBounds s p.1 p.2 with
    | true => rw [setPixel_indexed hb hf, andThen_raised]
    | false =>
      rw [setPixel_out hb, andThen_done]
      exact ih (by simpa [hb] using h)

/-- The code of the fault that the first blend on an Indexed8 buffer raises (R150, R164). -/
theorem errorCode_indexed (P Q : Prop) [Decidable P] [Decidable Q] :
    errorCode (if P then .accessFault else if Q then .paletteLookup else .indexedWriteTarget) =
      if P then 9 else if Q then 7 else 6 := by
  rw [apply_ite errorCode, apply_ite errorCode]
  rfl

/-- Settles O41: a run of stores or blends on an Indexed8 buffer ends at its first access. -/
theorem drawingOnIndexed8IsRefused : Obligations.DrawingOnIndexed8IsRefused := by
  intro s x0 y0 x1 y1 color hb hf
  refine ⟨fun hx hp => ?_, fun p k hk => ?_⟩
  · rw [exec_drawbres_of_bound hb hx, setAll_indexed _ hf hp, outcome_raised]
    rfl
  · rw [← errorCode_indexed] at hk
    subst hk
    refine ⟨fun hfirst => ?_, fun hfirst => ?_⟩
    · rw [exec_drawpoint_of_bound hb, blendAll_indexed _ hf hfirst, outcome_raised, raise_eq]
    · rw [exec_drawaaline_of_bound hb, blendAll_indexed _ hf hfirst, outcome_raised, raise_eq]

/-! ## Runs that leave the buffer (R34, R162) -/

/-- Settles O14: the read or the write of the pixel fails its check; a run stops there, with the accesses before it made. -/
theorem accessFaultIsRaised : Obligations.AccessFaultIsRaised := by
  refine ⟨?pixel, ?drawbres, ?blends⟩
  case pixel =>
    intro s x y hb hin hd
    rw [← pixelOffset_words hin] at hd
    have hg := getPixel_of_access_fault hin hd
    refine ⟨exec_getpixel_of_error hb hg, fun hf color => ?_,
      fun color _ hr => exec_blendpixel_of_read_error hb hin hg color hr⟩
    rw [if_neg hf] at hd
    rw [exec_setpixel_of_bound hb, setPixel_direct hin hf, if_pos hd, outcome_raised]
    rfl
  case drawbres =>
    intro s x0 y0 x1 y1 color pre post x y hb hf hx hps hpre hin hd
    obtain ⟨m, hm, hbytes⟩ := setAll_stops (colorOf color) (post := post) hf hpre hin hd
    exact ⟨_, by rw [exec_drawbres_of_bound hb hx, hps, hm, outcome_raised], rfl, hbytes⟩
  case blends =>
    intro s pre post p hb hpre hw hin hd
    refine ⟨fun x0 y0 color hps => ?_, fun x0 y0 x1 y1 color hps => ?_⟩
    all_goals obtain ⟨m, hm, hbytes⟩ := blendAll_stops (colorOf color) (post := post) hpre hw hin hd
    · exact ⟨_, by rw [exec_drawpoint_of_bound hb, hps, hm, outcome_raised], rfl, hbytes⟩
    · exact ⟨_, by rw [exec_drawaaline_of_bound hb, hps, hm, outcome_raised], rfl, hbytes⟩

/-! ## What no command observes (R42) -/

/-- Two states answered from `s` and from one with the same pixels as `s`: they differ in bytes no pixel command accesses, and
the first has those bytes from `s`. -/
def AnswersAlike (s s' t' : State) : Prop :=
  s'.out = t'.out ∧ s'.fault = t'.fault ∧ s'.errcode = t'.errcode ∧ SamePixels s' t' ∧
    ∀ a, (∀ x y, inBounds s x y = true → ¬ PixelByte s x y a) → memRead s'.pmem a = memRead s.pmem a

theorem SamePixels.eq_setPmem {s t : State} (h : SamePixels s t) : t = setPmem t.pmem s := h.1

/-- Two runs that complete with the same change of each byte, one that leaves padding alone, answer alike. -/
theorem answersAlike_of_bytes {s t s' t' : State} (h : SamePixels s t) {r r' : Ran} {change : Nat → Byte → Byte}
    (hr : ∃ m, r = .done (setPmem m s) ∧ ∀ a, memRead m a = change a (memRead s.pmem a))
    (hr' : ∃ m, r' = .done (setPmem m t) ∧ ∀ a, memRead m a = change a (memRead t.pmem a))
    (hpad : ∀ a old, (∀ x y, inBounds s x y = true → ¬ PixelByte s x y a) → change a old = old)
    (hs : r.outcome = .next s') (ht : r'.outcome = .next t') : AnswersAlike s s' t' := by
  obtain ⟨m, rfl, hm⟩ := hr
  obtain ⟨m', rfl, hm'⟩ := hr'
  cases hs
  cases ht
  obtain ⟨hst, hsame⟩ := h
  rw [hst]
  refine ⟨rfl, rfl, rfl, ⟨rfl, fun x y a hin ha => ?_⟩, fun a ha => (hm a).trans (hpad a _ ha)⟩
  exact (hm' a).trans ((congrArg (change a) (hsame x y a hin ha)).trans (hm a).symm)

section
variable {s t s' t' : State} (h : DirectBuffer s) (hst : SamePixels s t)
include h hst

theorem SamePixels.directBuffer : DirectBuffer t := hst.eq_setPmem ▸ h.setPmem t.pmem

/-- A run of stores on a well-formed buffer of a direct format observes no padding. -/
theorem answersAlike_of_setAll (c : Color) (ps : List (Int × Int)) (hs : (setAll c ps s).outcome = .next s')
    (ht : (setAll c ps t).outcome = .next t') : AnswersAlike s s' t' := by
  have h' := hst.directBuffer h
  have hbytes := setAll_bytes c ps h'.2 fun p _ hin => direct_access_ok h' hin
  have hgeometry (a : Nat) (old : Byte) : storedByte t c a ps old = storedByte s c a ps old := by
    rw [hst.eq_setPmem, storedByte_setPmem]
  simp only [hgeometry] at hbytes
  exact answersAlike_of_bytes hst (setAll_bytes c ps h.2 fun p _ hin => direct_access_ok h hin) hbytes
    (fun a old ha => storedByte_of_untouched old fun p _ => ha p.1 p.2) hs ht

/-- A run of blends on a well-formed buffer of a direct format observes no padding. -/
theorem answersAlike_of_blendAll (c : Color) (ps : List Splat) (hs : (blendAll c ps s).outcome = .next s')
    (ht : (blendAll c ps t).outcome = .next t') : AnswersAlike s s' t' := by
  have h' := hst.directBuffer h
  have hbytes := blendAll_bytes c ps fun p _ _ hin => ⟨h'.2, direct_access_ok h' hin⟩
  have hgeometry (a : Nat) (old : Byte) : blendedByte t c a ps old = blendedByte s c a ps old := by
    rw [hst.eq_setPmem, blendedByte_setPmem]
  simp only [hgeometry] at hbytes
  exact answersAlike_of_bytes hst (blendAll_bytes c ps fun p _ _ hin => ⟨h.2, direct_access_ok h hin⟩) hbytes
    (fun a old ha => blendedByte_of_untouched old fun p _ _ => ha p.x p.y) hs ht

/-- A pixel reads the same from both. -/
theorem getPixel_of_samePixels (x y : Int) : getPixel t x y = getPixel s x y := by
  rw [hst.eq_setPmem]
  exact getPixel_congr h.2 fun hin a => hst.2 x y a hin

end

theorem SamePixels.outPush {s t : State} (h : SamePixels s t) (v : Word) :
    AnswersAlike s (outPush v s) (outPush v t) := by
  obtain ⟨ht, hsame⟩ := h
  rw [ht]
  exact ⟨rfl, rfl, rfl, ⟨rfl, hsame⟩, fun _ _ => rfl⟩

theorem SamePixels.raise {s t : State} (h : SamePixels s t) (e : ErrCode) : AnswersAlike s (raise e s) (raise e t) := by
  obtain ⟨ht, hsame⟩ := h
  rw [ht]
  exact ⟨rfl, rfl, rfl, ⟨rfl, hsame⟩, fun _ _ => rfl⟩

theorem setAll_singleton (c : Color) (p : Int × Int) (s : State) : setAll c [p] s = setPixel p.1 p.2 c s := by
  rw [setAll]
  cases setPixel p.1 p.2 c s <;> rfl

theorem blendAll_singleton (c : Color) (p : Splat) (s : State) : blendAll c [p] s = blend p.x p.y c p.w s := by
  rw [blendAll]
  cases blend p.x p.y c p.w s <;> rfl

/-- Settles O49: GETPIXEL reads accessed bytes only, and every other command is a run of stores or blends. -/
theorem paddingIsNeverObserved : Obligations.PaddingIsNeverObserved := by
  intro i s t s' t' hi h hst hs ht
  change AnswersAlike s s' t'
  have hb : s.bound = true := h.1.1
  have hb' : t.bound = true := hst.eq_setPmem ▸ hb
  cases i with
  | bpp | hasalpha | create | wrap => cases hi
  | getpixel x y =>
    cases hg : getPixel s x.toInt y.toInt with
    | ok c =>
      rw [exec_getpixel_of_ok hb hg] at hs
      rw [exec_getpixel_of_ok hb' ((getPixel_of_samePixels h hst _ _).trans hg)] at ht
      cases hs
      cases ht
      exact hst.outPush _
    | error e =>
      rw [exec_getpixel_of_error hb hg] at hs
      rw [exec_getpixel_of_error hb' ((getPixel_of_samePixels h hst _ _).trans hg)] at ht
      cases hs
      cases ht
      exact hst.raise e
  | setpixel x y color =>
    rw [exec_setpixel_of_bound hb, ← setAll_singleton _ (x.toInt, y.toInt)] at hs
    rw [exec_setpixel_of_bound hb', ← setAll_singleton _ (x.toInt, y.toInt)] at ht
    exact answersAlike_of_setAll h hst _ _ hs ht
  | blendpixel x y color ratio =>
    rw [exec_blendpixel_of_bound hb, ← blendAll_singleton _ ⟨x.toInt, y.toInt, ratioOf ratio⟩] at hs
    rw [exec_blendpixel_of_bound hb', ← blendAll_singleton _ ⟨x.toInt, y.toInt, ratioOf ratio⟩] at ht
    exact answersAlike_of_blendAll h hst _ _ hs ht
  | drawbres x0 y0 x1 y1 color =>
    by_cases hx : x1 = x0
    · subst hx
      rw [exec_drawbres_of_degenerate hb] at hs
      rw [exec_drawbres_of_degenerate hb'] at ht
      cases hs
      cases ht
      exact hst.raise _
    · rw [exec_drawbres_of_bound hb hx] at hs
      rw [exec_drawbres_of_bound hb' hx] at ht
      exact answersAlike_of_setAll h hst _ _ hs ht
  | drawpoint x0 y0 color =>
    rw [exec_drawpoint_of_bound hb] at hs
    rw [exec_drawpoint_of_bound hb'] at ht
    exact answersAlike_of_blendAll h hst _ _ hs ht
  | drawaaline x0 y0 x1 y1 color =>
    rw [exec_drawaaline_of_bound hb] at hs
    rw [exec_drawaaline_of_bound hb'] at ht
    exact answersAlike_of_blendAll h hst _ _ hs ht

end Sys2Proof.Machine
end

section
/-!
SUPPORT. The Bresenham loop (spec/43_bresenham.md R121 to R123): how many pixels it visits, in which columns and rows, and that
its integer form is the same machine.
-/

namespace Sys2Proof.Machine

/-! ## Columns (R122) -/

@[simp] theorem length_bresLoop (d : ℚ) (n : Nat) (x y : Int) (error : ℚ) : (bresLoop d n x y error).length = n := by
  induction n generalizing x y error with
  | zero => rfl
  | succ n ih => rw [bresLoop, List.length_cons]; split <;> rw [ih]

/-- The loop advances one column per step. -/
theorem bresLoop_columns (d : ℚ) (n : Nat) (x y : Int) (error : ℚ) :
    (bresLoop d n x y error).map Prod.fst = (List.range n).map fun k : Nat => x + (k : Int) := by
  induction n generalizing x y error with
  | zero => rfl
  | succ n ih =>
    have hshift : (fun k : Nat => x + 1 + (k : Int)) = (fun k : Nat => x + (k : Int)) ∘ Nat.succ := by
      funext k
      simp only [Function.comp_apply, Nat.cast_succ]
      ring
    rw [bresLoop, List.map_cons, List.range_succ_eq_map, List.map_cons, List.map_map, ← hshift, Nat.cast_zero, add_zero]
    congr 1
    split <;> exact ih ..

theorem length_bresPixels (x0 y0 x1 y1 : Int) : (bresPixels x0 y0 x1 y1).length = (x1 - x0).toNat := length_bresLoop ..

/-- Settles O27: one pixel per step and one column per step; two 32-bit abscissas are less than `2^32` apart. -/
theorem bresenhamVisitsEachColumnOnce : Obligations.BresenhamVisitsEachColumnOnce := by
  refine ⟨fun x0 y0 x1 y1 => ⟨?_, ?_⟩, fun x0 y0 x1 y1 => ?_⟩
  · rw [length_bresPixels]
    omega
  · rw [length_bresPixels]
    exact bresLoop_columns ..
  · have hlo : -(2 ^ 31 : Int) ≤ x0.toInt := BitVec.le_toInt x0
    have hhi : x1.toInt < (2 ^ 31 : Int) := BitVec.toInt_lt
    rw [length_bresPixels]
    omega

/-! ## The integer form (R123) -/

/-- The threshold test of a step in both forms. -/
theorem threshold_iff {adx ady e : Int} {error : ℚ} (hpos : 0 < adx) (he : (e : ℚ) = 2 * (adx : ℚ) * error) :
    1 / 2 ≤ error + (ady : ℚ) / adx ↔ adx ≤ e + 2 * ady := by
  have hpos : (0 : ℚ) < 2 * adx := mul_pos two_pos (Int.cast_pos.mpr hpos)
  have hhalf : 2 * (adx : ℚ) * (1 / 2) = adx := by ring
  have hscaled : 2 * adx * (error + (ady : ℚ) / adx) = ((e + 2 * ady : Int) : ℚ) := by
    have hne : (adx : ℚ) ≠ 0 := right_ne_zero_of_mul hpos.ne'
    push_cast
    rw [he]
    field_simp
  rw [← mul_le_mul_iff_right₀ hpos, hhalf, hscaled, Int.cast_le]

/-- The two loops write the same pixels as long as `E` is the scaled accumulator. -/
theorem bresLoop_eq_bresIntLoop {adx ady : Int} (hpos : 0 < adx) (n : Nat) (x y e : Int) (error : ℚ)
    (he : (e : ℚ) = 2 * (adx : ℚ) * error) :
    bresLoop ((ady : ℚ) / (adx : ℚ)) n x y error = bresIntLoop adx ady n x y e := by
  induction n generalizing x y e error with
  | zero => rfl
  | succ n ih =>
    have hne : (adx : ℚ) ≠ 0 := Int.cast_ne_zero.mpr hpos.ne'
    rw [bresLoop, bresIntLoop, if_congr (threshold_iff hpos he) rfl rfl]
    congr 1
    split
    · exact ih _ _ _ _ (by push_cast; rw [he]; field_simp)
    · exact ih _ _ _ _ (by push_cast; rw [he]; field_simp)

/-- Settles O28: the invariant `E = 2 * abs(deltaX) * error` holds at the start, where both are 0. -/
theorem bresenhamIntegerFormIsTheSameMachine : Obligations.BresenhamIntegerFormIsTheSameMachine := by
  refine ⟨fun adx ady n x y e error hpos _ he => bresLoop_eq_bresIntLoop hpos n x y e error he, fun x0 y0 x1 y1 hx => ?_⟩
  rw [bresPixels, bresIntPixels, ← Int.cast_abs, ← Int.cast_abs]
  exact bresLoop_eq_bresIntLoop (abs_pos.mpr (sub_ne_zero.mpr hx)) _ _ _ _ _ (by simp)

/-! ## Rows -/

/-- A step of the loop, with the row and the accumulator it goes on with: while the accumulator is below 1/2 and the slope at
most 1, the threshold test takes the nearest row. -/
theorem bresLoop_succ {d error : ℚ} (hd0 : 0 ≤ d) (hd1 : d ≤ 1) (he0 : -1 / 2 ≤ error) (he1 : error < 1 / 2) (n : Nat)
    (x y : Int) :
    bresLoop d (n + 1) x y error =
      (x, y) ::
        bresLoop d n (x + 1) (y + ⌊error + d + 1 / 2⌋) (error + d - ⌊error + d + 1 / 2⌋) := by
  rw [bresLoop]
  congr 1
  split
  · next h =>
    have hfloor : ⌊error + d + 1 / 2⌋ = 1 := by
      rw [Int.floor_eq_iff]; push_cast; constructor <;> linarith
    rw [hfloor, Int.cast_one]
  · next h =>
    have hfloor : ⌊error + d + 1 / 2⌋ = 0 := by
      rw [Int.floor_eq_iff]; push_cast; constructor <;> linarith
    rw [hfloor, Int.cast_zero, add_zero, sub_zero]

/-- A line that is not steep is written at the nearest row of each column. -/
theorem bresLoop_row {d error : ℚ} (hd0 : 0 ≤ d) (hd1 : d ≤ 1) (he0 : -1 / 2 ≤ error) (he1 : error < 1 / 2) {n k : Nat}
    (hk : k < n) (x y : Int) :
    (bresLoop d n x y error)[k]? = some (x + k, y + ⌊error + k * d + 1 / 2⌋) := by
  induction n generalizing x y error k with
  | zero => exact absurd hk (Nat.not_lt_zero k)
  | succ n ih =>
    rw [bresLoop_succ hd0 hd1 he0 he1]
    cases k with
    | zero =>
      have hfloor : ⌊error + 1 / 2⌋ = 0 := by
        rw [Int.floor_eq_iff]; push_cast; constructor <;> linarith
      simp only [List.getElem?_cons_zero, Nat.cast_zero, zero_mul, add_zero, hfloor]
    | succ k =>
      have hlo := Int.floor_le (error + d + 1 / 2)
      have hhi := Int.lt_floor_add_one (error + d + 1 / 2)
      rw [List.getElem?_cons_succ, ih (by linarith) (by linarith) (by omega)]
      have hrow : error + d - ⌊error + d + 1 / 2⌋ + k * d + 1 / 2 =
          error + ((k + 1 : Nat) : ℚ) * d + 1 / 2 - (⌊error + d + 1 / 2⌋ : ℚ) := by
        push_cast; ring
      rw [hrow, Int.floor_sub_intCast]
      congr 2
      · push_cast; ring
      · ring

/-- A steep line moves one row with every column. -/
theorem bresLoop_row_of_steep {d error : ℚ} (hd : 1 ≤ d) (he : 0 ≤ error) {n k : Nat} (hk : k < n) (x y : Int) :
    (bresLoop d n x y error)[k]? = some (x + k, y + k) := by
  induction n generalizing x y error k with
  | zero => exact absurd hk (Nat.not_lt_zero k)
  | succ n ih =>
    rw [bresLoop, if_pos (by linarith)]
    cases k with
    | zero => simp
    | succ k =>
      rw [List.getElem?_cons_succ, ih (by linarith) (by omega)]
      congr 2 <;> push_cast <;> ring

/-- Settles O29: the loop starts with accumulator 0 and slope `abs(deltaY) / deltaX`. -/
theorem bresenhamRows : Obligations.BresenhamRows := by
  intro x0 y0 x1 y1 k hk
  have hdx : (0 : ℚ) < ((x1 - x0 : Int) : ℚ) := Int.cast_pos.mpr (by omega)
  have hkn : k < (x1 - x0).toNat := by omega
  rw [bresPixels, abs_of_pos hdx, ← Int.cast_abs]
  constructor
  · intro hle
    have hslope : ((|y1 - y0| : Int) : ℚ) / ((x1 - x0 : Int) : ℚ) ≤ 1 := (div_le_one hdx).mpr (Int.cast_le.mpr hle)
    rw [bresLoop_row (by positivity) hslope (by norm_num) (by norm_num) hkn, zero_add]
  · intro hle
    exact bresLoop_row_of_steep ((one_le_div hdx).mpr (Int.cast_le.mpr hle)) le_rfl hkn _ _

end Sys2Proof.Machine
end

section
/-!
SUPPORT. The splat of a point and the Wu line (spec/44_wu.md R131 to R140): the splat's weights as triangles, and the weights,
the number and the closed form of a line's blends.
-/

namespace Sys2Proof.Machine

/-! ## The triangle filter (R131, R132) -/

/-- The triangle of unit half-width around the centre of pixel `p`, at `v` (R131). -/
def triangleAt (v : ℚ) (p : Int) : ℚ := max 0 (1 - |v - ((p : ℚ) + 1 / 2)|)

/-- The tent weights of a coordinate are the triangles of the three pixels around it. -/
theorem tent_fract (v : ℚ) :
    tent (v - ⌊v⌋) =
      { lower := triangleAt v (⌊v⌋ - 1), middle := triangleAt v ⌊v⌋, upper := triangleAt v (⌊v⌋ + 1) } := by
  have hlower : v - ⌊v⌋ + 1 / 2 = v - (((⌊v⌋ - 1 : Int) : ℚ) + 1 / 2) := by push_cast; ring
  have hmiddle : v - ⌊v⌋ - 1 / 2 = v - ((⌊v⌋ : ℚ) + 1 / 2) := by ring
  have hupper : v - ⌊v⌋ - 3 / 2 = v - (((⌊v⌋ + 1 : Int) : ℚ) + 1 / 2) := by push_cast; ring
  rw [tent_eq (f := v - ⌊v⌋) (Int.fract_nonneg v) (Int.fract_lt_one v), hlower, hmiddle, hupper]
  rfl

/-- Settles O30: the tent is the triangle at three distances, and each row and column of the splat has the weight of its axis. -/
theorem tentIsTheTriangleFilter : Obligations.TentIsTheTriangleFilter := by
  refine ⟨fun f h0 h1 => ?_, fun x0 y0 => ?_⟩
  · obtain ⟨-, hsum, hside⟩ := tent_sharesOneUnit h0 h1
    rw [TentWeights.sum_toList] at hsum
    have hcentre : f - (-1 / 2) = f + 1 / 2 := by ring
    refine ⟨?_, ?_, ?_, hsum, hside⟩
    · rw [tent_eq h0 h1, hcentre]
    · rw [tent_eq h0 h1]
    · rw [tent_eq h0 h1]
  · rw [pointSplats, tent_fract, tent_fract]
    rfl

/-! ## Weights (R140) -/

/-- Every weight of a list of blends is in `[0, 1]`. -/
def UnitWeights (ps : List Splat) : Prop := ∀ p ∈ ps, 0 ≤ p.w ∧ p.w ≤ 1

theorem UnitWeights.append {ps qs : List Splat} (hp : UnitWeights ps) (hq : UnitWeights qs) : UnitWeights (ps ++ qs) :=
  fun p h => (List.mem_append.mp h).elim (hp p) (hq p)

theorem UnitWeights.map_swapAxes {ps : List Splat} (h : UnitWeights ps) : UnitWeights (ps.map swapAxes) := by
  intro q hq
  obtain ⟨p, hp, rfl⟩ := List.mem_map.mp hq
  exact h p hp

theorem fpart_mem_unit (v : ℚ) : 0 ≤ fpart v ∧ fpart v ≤ 1 := ⟨Int.fract_nonneg v, (Int.fract_lt_one v).le⟩

theorem rfpart_mem_unit (v : ℚ) : 0 ≤ rfpart v ∧ rfpart v ≤ 1 := by
  have h := fpart_mem_unit v
  exact ⟨sub_nonneg.mpr h.2, sub_le_self 1 h.1⟩

/-- A column splits its gap factor by the fractional part (R136). -/
theorem unitWeights_columnSplats (a : Int) (b : ℚ) {gap : ℚ} (hgap : 0 ≤ gap ∧ gap ≤ 1) :
    UnitWeights (columnSplats a b gap) := by
  have hprod {r : ℚ} (hr : 0 ≤ r ∧ r ≤ 1) : 0 ≤ r * gap ∧ r * gap ≤ 1 :=
    ⟨mul_nonneg hr.1 hgap.1, mul_le_one₀ hr.2 hgap.1 hgap.2⟩
  intro p hp
  obtain rfl | rfl : p = _ ∨ p = _ := by simpa [columnSplats] using hp
  · exact hprod (rfpart_mem_unit b)
  · exact hprod (fpart_mem_unit b)

theorem unitWeights_wuLoop (gradient : ℚ) (n : Nat) (a : Int) (intery : ℚ) :
    UnitWeights (wuLoop gradient n a intery) := by
  induction n generalizing a intery with
  | zero => exact nofun
  | succ n ih => exact (unitWeights_columnSplats a intery ⟨zero_le_one, le_rfl⟩).append (ih _ _)

theorem unitWeights_wuSpine (x0 y0 x1 y1 : ℚ) : UnitWeights (wuSpine x0 y0 x1 y1) :=
  ((unitWeights_columnSplats _ _ (rfpart_mem_unit _)).append
    (unitWeights_columnSplats _ _ (fpart_mem_unit _))).append (unitWeights_wuLoop _ _ _ _)

theorem unitWeights_wuOrdered (x0 y0 x1 y1 : ℚ) : UnitWeights (wuOrdered x0 y0 x1 y1) := by
  unfold wuOrdered
  split
  · exact unitWeights_wuSpine x1 y1 x0 y0
  · exact unitWeights_wuSpine x0 y0 x1 y1

theorem unitWeights_pointSplats (x0 y0 : ℚ) : UnitWeights (pointSplats x0 y0) :=
  fun _ hp => pointSplats_weight_mem_unit hp

theorem unitWeights_aalineSplats (x0 y0 x1 y1 : ℚ) : UnitWeights (aalineSplats x0 y0 x1 y1) := by
  unfold aalineSplats
  split
  · exact unitWeights_pointSplats x0 y0
  · unfold lineSplats
    split
    · exact (unitWeights_wuOrdered y0 x0 y1 x1).map_swapAxes
    · exact unitWeights_wuOrdered x0 y0 x1 y1

/-- Settles O34: the splat's weights are products of tent weights, the line's are fractional parts times gap factors. -/
theorem blendWeightsAreInTheUnitInterval : Obligations.BlendWeightsAreInTheUnitInterval := fun x0 y0 x1 y1 =>
  ⟨unitWeights_pointSplats x0 y0, unitWeights_aalineSplats x0 y0 x1 y1⟩

/-! ## The number of blends (R139) -/

@[simp] theorem length_columnSplats (a : Int) (b gap : ℚ) : (columnSplats a b gap).length = 2 := rfl

@[simp] theorem length_wuLoop (gradient : ℚ) (n : Nat) (a : Int) (intery : ℚ) :
    (wuLoop gradient n a intery).length = 2 * n := by
  induction n generalizing a intery with
  | zero => rfl
  | succ n ih => rw [wuLoop, List.length_append, ih, length_columnSplats]; ring

theorem length_wuSpine (x0 y0 x1 y1 : ℚ) :
    ((wuSpine x0 y0 x1 y1).length : Int) = 4 + 2 * max 0 (roundHalfUp x1 - roundHalfUp x0 - 1) := by
  simp only [wuSpine, List.length_append, length_columnSplats, length_wuLoop]
  omega

theorem length_wuOrdered (x0 y0 x1 y1 : ℚ) :
    ((wuOrdered x0 y0 x1 y1).length : Int) =
      4 + 2 * max 0 (roundHalfUp (max x0 x1) - roundHalfUp (min x0 x1) - 1) := by
  unfold wuOrdered
  split
  · next h => rw [length_wuSpine, max_eq_left h.le, min_eq_right h.le]
  · next h => rw [length_wuSpine, max_eq_right (not_lt.mp h), min_eq_left (not_lt.mp h)]

/-- The blends of a line with distinct endpoints, counted along its primary axis. -/
theorem length_aalineSplats {x0 y0 x1 y1 : ℚ} (hne : ¬ (x0 = x1 ∧ y0 = y1)) {p0 p1 : ℚ}
    (hp : if |x1 - x0| < |y1 - y0| then p0 = min y0 y1 ∧ p1 = max y0 y1 else p0 = min x0 x1 ∧ p1 = max x0 x1) :
    ((aalineSplats x0 y0 x1 y1).length : Int) = 4 + 2 * max 0 (roundHalfUp p1 - roundHalfUp p0 - 1) := by
  rw [aalineSplats, if_neg hne, lineSplats, isSteep]
  split at hp
  · next h =>
    obtain ⟨rfl, rfl⟩ := hp
    rw [if_pos (decide_eq_true h), List.length_map, length_wuOrdered]
  · next h =>
    obtain ⟨rfl, rfl⟩ := hp
    rw [if_neg (by simpa using h), length_wuOrdered]

/-- Rounding keeps the range of Q16.16, its upper end included. -/
theorem roundHalfUp_mem {v : ℚ} (hlo : -32768 ≤ v) (hhi : v ≤ 32768) : -32768 ≤ roundHalfUp v ∧ roundHalfUp v ≤ 32768 := by
  constructor
  · exact Int.le_floor.mpr (by push_cast; linarith)
  · exact Int.lt_add_one_iff.mp (Int.floor_lt.mpr (by push_cast; linarith))

/-- The range of Q16.16 (R53). -/
theorem q16_mem (w : Word) : -32768 ≤ q16 w ∧ q16 w ≤ 32768 := by
  have hlo : (-2147483648 : ℚ) ≤ w.toInt := by exact_mod_cast BitVec.le_toInt w
  have hhi : (w.toInt : ℚ) ≤ 2147483648 := by exact_mod_cast (BitVec.toInt_lt (x := w)).le
  unfold q16
  constructor <;> linarith

/-- A line whose coordinates lie in the range of Q16.16 makes at most 131,074 blends. -/
theorem length_wuOrdered_le {x0 x1 : ℚ} (h0 : -32768 ≤ x0 ∧ x0 ≤ 32768) (h1 : -32768 ≤ x1 ∧ x1 ≤ 32768) (y0 y1 : ℚ) :
    (wuOrdered x0 y0 x1 y1).length ≤ 131074 := by
  have hlen := length_wuOrdered x0 y0 x1 y1
  have hmax := (roundHalfUp_mem (le_max_of_le_left h0.1) (max_le h0.2 h1.2)).2
  have hmin := (roundHalfUp_mem (le_min h0.1 h1.1) (min_le_of_left_le h0.2)).1
  omega

/-- Settles O36: two blends per column, and columns in the range of Q16.16. -/
theorem wuLineWork : Obligations.WuLineWork := by
  have hpoint (x y : ℚ) : (aalineSplats x y x y).length = 9 := by rw [aalineSplats_self]; rfl
  refine ⟨fun _ _ _ _ hne _ _ hp => length_aalineSplats hne hp, hpoint,
    fun w => ⟨rfl, roundHalfUp_mem (q16_mem w).1 (q16_mem w).2⟩, fun x0 y0 x1 y1 => ?_⟩
  by_cases h : q16 x0 = q16 x1 ∧ q16 y0 = q16 y1
  · rw [h.1, h.2, hpoint]
    decide
  · rw [aalineSplats, if_neg h, lineSplats]
    split
    · rw [List.length_map]
      exact length_wuOrdered_le (q16_mem y0) (q16_mem y1) _ _
    · exact length_wuOrdered_le (q16_mem x0) (q16_mem x1) _ _

/-! ## The slope (R135) -/

/-- A slope along the axis of greater extent. -/
theorem abs_slope_le_one {a b : ℚ} (hb : b ≠ 0) (hab : |a| ≤ |b|) : |a / b| ≤ 1 := by
  rw [abs_div]
  exact (div_le_one (abs_pos.mpr hb)).mpr hab

/-- Settles O38: the axis of greater extent has one. -/
theorem wuGradientIsDefined : Obligations.WuGradientIsDefined := by
  intro x0 y0 x1 y1 hne
  refine ⟨fun hs => ?_, fun hs => ?_⟩
  · have hy : y1 - y0 ≠ 0 := sub_ne_zero.mpr (ordinates_ne_of_steep hs).symm
    have hlt : |x1 - x0| < |y1 - y0| := of_decide_eq_true hs
    exact ⟨hy, abs_slope_le_one hy hlt.le⟩
  · have hx : x1 - x0 ≠ 0 := sub_ne_zero.mpr (abscissas_ne_of_not_steep (Bool.not_eq_true _ ▸ hs) hne).symm
    have hle : |y1 - y0| ≤ |x1 - x0| := not_lt.mp (of_decide_eq_false hs)
    exact ⟨hx, abs_slope_le_one hx hle⟩

/-! ## The line in closed form (R136, R137) -/

/-- The spine of a line is its closed form: both endpoints lie on the exact line, and the loop keeps on it. -/
theorem wuSpine_eq_lineBlends {x0 x1 : ℚ} (h : x0 < x1) (y0 y1 : ℚ) : wuSpine x0 y0 x1 y1 = lineBlends x0 y0 x1 y1 := by
  have hend : y1 = y0 + (y1 - y0) / (x1 - x0) * (x1 - x0) := by
    rw [div_mul_cancel₀ _ (sub_ne_zero.mpr h.ne')]; ring
  simp only [wuSpine, lineBlends, columnSplats_eq, wuLoop_eq, yendAt]
  congr 1
  · congr 1
    congr 1
    unfold roundHalfUp
    nth_rewrite 1 [hend]
    ring
  · congr 1
    funext k
    congr 1
    unfold roundHalfUp
    push_cast
    ring

theorem wuOrdered_eq_lineBlends {x0 x1 : ℚ} (h : x0 < x1) (y0 y1 : ℚ) :
    wuOrdered x0 y0 x1 y1 = lineBlends x0 y0 x1 y1 := by
  rw [wuOrdered, if_neg h.not_gt, wuSpine_eq_lineBlends h]

/-- Settles O39: the spine in closed form, along x or, with the axes exchanged, along y. -/
theorem wuMainLoopFollowsTheLine : Obligations.WuMainLoopFollowsTheLine := by
  refine fun x0 y0 x1 y1 => ⟨fun h => wuSpine_eq_lineBlends h y0 y1, fun h hle => ?_, fun h hlt => ?_⟩
  · have hflat : ¬ isSteep x0 y0 x1 y1 = true := by
      rw [isSteep, decide_eq_true_iff, abs_of_pos (sub_pos.mpr h)]
      exact hle.not_gt
    rw [aalineSplats, if_neg fun he => h.ne he.1, lineSplats, if_neg hflat, wuOrdered_eq_lineBlends h]
  · have hsteep : isSteep x0 y0 x1 y1 = true := by
      rw [isSteep, decide_eq_true_iff, abs_of_pos (sub_pos.mpr h)]
      exact hlt
    rw [aalineSplats, if_neg fun he => h.ne he.2, lineSplats, if_pos hsteep, wuOrdered_eq_lineBlends h]
    rfl

end Sys2Proof.Machine
end
